-- ==== Sys2Proof/Word.lean ====
section
/-!
DEFINITION. The bit-vector types of the core (00_scope.md rules R5, R6, R9): every value is unsigned, and a width is
stated where a value is introduced.
-/

namespace Sys2Proof

/-- u8: a memory cell, a general register, a timer, an immediate `kk`. -/
abbrev Byte := BitVec 8

/-- u16: the opcode word, `I`, `PC`, a return address. -/
abbrev Word := BitVec 16

/-- u4: a register index `x` or `y`, a row count `n`, a key code, a top nibble. -/
abbrev Nibble := BitVec 4

/-- u12: an address field `nnn`. -/
abbrev Addr12 := BitVec 12

/-- The index of `VF`, the flag register (R11, R13). -/
abbrev regF : Nibble := 0xF#4

/-- The index of `V0`, which `Bnnn` reads (R12). -/
abbrev reg0 : Nibble := 0x0#4

end Sys2Proof
end

