-- ==== Sys2Proof/Syntax.lean ====
section
/-!
DEFINITION. The instructions: one constructor per row of spec/opcode_table.json (30_encoding.md R68), in the table's
order. Operands are the fields of R9 and R67, each at its exact width.
-/

namespace Sys2Proof

/-- The 34 instructions of `CHIP-8-base` (R1, R68). -/
inductive Instr where
  /-- 00E0 `CLS` (R81) -/
  | cls
  /-- 00EE `RET` (R91) -/
  | ret
  /-- 1nnn `JP nnn` (R92) -/
  | jp (nnn : Addr12)
  /-- 2nnn `CALL nnn` (R93) -/
  | call (nnn : Addr12)
  /-- 3xkk `SE Vx, kk` (R101) -/
  | seImm (x : Nibble) (kk : Byte)
  /-- 4xkk `SNE Vx, kk` (R102) -/
  | sneImm (x : Nibble) (kk : Byte)
  /-- 5xy0 `SE Vx, Vy` (R103) -/
  | seReg (x y : Nibble)
  /-- 6xkk `LD Vx, kk` (R111) -/
  | ldImm (x : Nibble) (kk : Byte)
  /-- 7xkk `ADD Vx, kk` (R112) -/
  | addImm (x : Nibble) (kk : Byte)
  /-- 8xy0 `LD Vx, Vy` (R113) -/
  | ldReg (x y : Nibble)
  /-- 8xy1 `OR Vx, Vy` (R114) -/
  | orReg (x y : Nibble)
  /-- 8xy2 `AND Vx, Vy` (R115) -/
  | andReg (x y : Nibble)
  /-- 8xy3 `XOR Vx, Vy` (R116) -/
  | xorReg (x y : Nibble)
  /-- 8xy4 `ADD Vx, Vy` (R117) -/
  | addReg (x y : Nibble)
  /-- 8xy5 `SUB Vx, Vy` (R118) -/
  | subReg (x y : Nibble)
  /-- 8xy6 `SHR Vx` (R119); `y` is part of the word and is not read (R66) -/
  | shr (x y : Nibble)
  /-- 8xy7 `SUBN Vx, Vy` (R120) -/
  | subnReg (x y : Nibble)
  /-- 8xyE `SHL Vx` (R121); `y` is part of the word and is not read (R66) -/
  | shl (x y : Nibble)
  /-- 9xy0 `SNE Vx, Vy` (R104) -/
  | sneReg (x y : Nibble)
  /-- Annn `LD I, nnn` (R131) -/
  | ldI (nnn : Addr12)
  /-- Bnnn `JP V0, nnn` (R94) -/
  | jpV0 (nnn : Addr12)
  /-- Cxkk `RND Vx, kk` (R122) -/
  | rnd (x : Nibble) (kk : Byte)
  /-- Dxyn `DRW Vx, Vy, n` (R82) -/
  | drw (x y n : Nibble)
  /-- Ex9E `SKP Vx` (R105) -/
  | skp (x : Nibble)
  /-- ExA1 `SKNP Vx` (R106) -/
  | sknp (x : Nibble)
  /-- Fx07 `LD Vx, DT` (R141) -/
  | ldVxDt (x : Nibble)
  /-- Fx0A `LD Vx, K` (R142) -/
  | ldVxK (x : Nibble)
  /-- Fx15 `LD DT, Vx` (R143) -/
  | ldDtVx (x : Nibble)
  /-- Fx18 `LD ST, Vx` (R144) -/
  | ldStVx (x : Nibble)
  /-- Fx1E `ADD I, Vx` (R132) -/
  | addI (x : Nibble)
  /-- Fx29 `LD F, Vx` (R133) -/
  | ldF (x : Nibble)
  /-- Fx33 `LD B, Vx` (R134) -/
  | ldB (x : Nibble)
  /-- Fx55 `LD [I], Vx` (R135) -/
  | ldMemVx (x : Nibble)
  /-- Fx65 `LD Vx, [I]` (R136) -/
  | ldVxMem (x : Nibble)
deriving DecidableEq, Repr

end Sys2Proof
end

