-- ==== Sys2Proof/Decode.lean ====
section
/-!
DEFINITION. Decoding and encoding of the one 16-bit format (30_encoding.md R61, R63, R68, R70).
-/

namespace Sys2Proof

/-- Why a decoder refuses. -/
inductive DecodeError where
  /-- the word matches no row of R68 (`Unknown` of R63) -/
  | unknown (op : Word)
  /-- fewer than the two bytes an instruction has (R70) -/
  | truncated
deriving DecidableEq, Repr

/-- op[15:12], the primary dispatch (R61). -/
def opTop (op : Word) : Nibble := op.extractLsb' 12 4

/-- x = op[11:8] (R9). -/
def opX (op : Word) : Nibble := op.extractLsb' 8 4

/-- y = op[7:4] (R9). -/
def opY (op : Word) : Nibble := op.extractLsb' 4 4

/-- n = op[3:0] (R9). -/
def opN (op : Word) : Nibble := op.extractLsb' 0 4

/-- kk = op[7:0] (R9). -/
def opKk (op : Word) : Byte := op.extractLsb' 0 8

/-- nnn = op[11:0] (R9). -/
def opNnn (op : Word) : Addr12 := op.extractLsb' 0 12

/-- Family 0: dispatch on the whole word (R63). -/
def decodeFamily0 (op : Word) : Except DecodeError Instr :=
  if op = 0x00E0#16 then .ok .cls
  else if op = 0x00EE#16 then .ok .ret
  else .error (.unknown op)

/-- Family 8: dispatch on n (R63). -/
def decodeFamily8 (op : Word) : Except DecodeError Instr :=
  match opN op with
  | 0x0#4 => .ok (.ldReg (opX op) (opY op))
  | 0x1#4 => .ok (.orReg (opX op) (opY op))
  | 0x2#4 => .ok (.andReg (opX op) (opY op))
  | 0x3#4 => .ok (.xorReg (opX op) (opY op))
  | 0x4#4 => .ok (.addReg (opX op) (opY op))
  | 0x5#4 => .ok (.subReg (opX op) (opY op))
  | 0x6#4 => .ok (.shr (opX op) (opY op))
  | 0x7#4 => .ok (.subnReg (opX op) (opY op))
  | 0xE#4 => .ok (.shl (opX op) (opY op))
  | _ => .error (.unknown op)

/-- Family E: dispatch on kk (R63). -/
def decodeFamilyE (op : Word) : Except DecodeError Instr :=
  match opKk op with
  | 0x9E#8 => .ok (.skp (opX op))
  | 0xA1#8 => .ok (.sknp (opX op))
  | _ => .error (.unknown op)

/-- Family F: dispatch on kk (R63). -/
def decodeFamilyF (op : Word) : Except DecodeError Instr :=
  match opKk op with
  | 0x07#8 => .ok (.ldVxDt (opX op))
  | 0x0A#8 => .ok (.ldVxK (opX op))
  | 0x15#8 => .ok (.ldDtVx (opX op))
  | 0x18#8 => .ok (.ldStVx (opX op))
  | 0x1E#8 => .ok (.addI (opX op))
  | 0x29#8 => .ok (.ldF (opX op))
  | 0x33#8 => .ok (.ldB (opX op))
  | 0x55#8 => .ok (.ldMemVx (opX op))
  | 0x65#8 => .ok (.ldVxMem (opX op))
  | _ => .error (.unknown op)

/-- `Decode` (R63): total on every word; a word that matches no row of R68 is refused by name. -/
def decode (op : Word) : Except DecodeError Instr :=
  match opTop op with
  | 0x0#4 => decodeFamily0 op
  | 0x1#4 => .ok (.jp (opNnn op))
  | 0x2#4 => .ok (.call (opNnn op))
  | 0x3#4 => .ok (.seImm (opX op) (opKk op))
  | 0x4#4 => .ok (.sneImm (opX op) (opKk op))
  | 0x5#4 => if opN op = 0x0#4 then .ok (.seReg (opX op) (opY op)) else .error (.unknown op)
  | 0x6#4 => .ok (.ldImm (opX op) (opKk op))
  | 0x7#4 => .ok (.addImm (opX op) (opKk op))
  | 0x8#4 => decodeFamily8 op
  | 0x9#4 => if opN op = 0x0#4 then .ok (.sneReg (opX op) (opY op)) else .error (.unknown op)
  | 0xA#4 => .ok (.ldI (opNnn op))
  | 0xB#4 => .ok (.jpV0 (opNnn op))
  | 0xC#4 => .ok (.rnd (opX op) (opKk op))
  | 0xD#4 => .ok (.drw (opX op) (opY op) (opN op))
  | 0xE#4 => decodeFamilyE op
  | 0xF#4 => decodeFamilyF op
  | _ => .error (.unknown op)

/-- The big-endian word of two bytes (R6, R51): `{hi, lo}`. -/
def wordOfBytes (hi lo : Byte) : Word := hi ++ lo

/-- Decoding from a byte stream: two bytes, the high one first (R51, R70), and the rest of the stream. -/
def decodeBytes : List Byte → Except DecodeError (Instr × List Byte)
  | hi :: lo :: rest =>
    match decode (wordOfBytes hi lo) with
    | .ok i => .ok (i, rest)
    | .error e => .error e
  | _ => .error .truncated

/-- The instruction the decoder reads from a row's bits `w`: the word is laid out as the core stores it, high byte at
the lower address (R51). Bits above `nbits` are 0. -/
def decodeTableWord (nbits w : Nat) : Option Instr :=
  match decodeBytes [BitVec.ofNat 8 (w % 2 ^ nbits / 256), BitVec.ofNat 8 (w % 2 ^ nbits)] with
  | .ok (i, _) => some i
  | .error _ => none

/-- The word of an instruction, field by field from the top nibble down (R61, R68). -/
def encode : Instr → Word
  | .cls => 0x00E0#16
  | .ret => 0x00EE#16
  | .jp nnn => 0x1#4 ++ nnn
  | .call nnn => 0x2#4 ++ nnn
  | .seImm x kk => 0x3#4 ++ x ++ kk
  | .sneImm x kk => 0x4#4 ++ x ++ kk
  | .seReg x y => 0x5#4 ++ x ++ y ++ 0x0#4
  | .ldImm x kk => 0x6#4 ++ x ++ kk
  | .addImm x kk => 0x7#4 ++ x ++ kk
  | .ldReg x y => 0x8#4 ++ x ++ y ++ 0x0#4
  | .orReg x y => 0x8#4 ++ x ++ y ++ 0x1#4
  | .andReg x y => 0x8#4 ++ x ++ y ++ 0x2#4
  | .xorReg x y => 0x8#4 ++ x ++ y ++ 0x3#4
  | .addReg x y => 0x8#4 ++ x ++ y ++ 0x4#4
  | .subReg x y => 0x8#4 ++ x ++ y ++ 0x5#4
  | .shr x y => 0x8#4 ++ x ++ y ++ 0x6#4
  | .subnReg x y => 0x8#4 ++ x ++ y ++ 0x7#4
  | .shl x y => 0x8#4 ++ x ++ y ++ 0xE#4
  | .sneReg x y => 0x9#4 ++ x ++ y ++ 0x0#4
  | .ldI nnn => 0xA#4 ++ nnn
  | .jpV0 nnn => 0xB#4 ++ nnn
  | .rnd x kk => 0xC#4 ++ x ++ kk
  | .drw x y n => 0xD#4 ++ x ++ y ++ n
  | .skp x => 0xE#4 ++ x ++ 0x9E#8
  | .sknp x => 0xE#4 ++ x ++ 0xA1#8
  | .ldVxDt x => 0xF#4 ++ x ++ 0x07#8
  | .ldVxK x => 0xF#4 ++ x ++ 0x0A#8
  | .ldDtVx x => 0xF#4 ++ x ++ 0x15#8
  | .ldStVx x => 0xF#4 ++ x ++ 0x18#8
  | .addI x => 0xF#4 ++ x ++ 0x1E#8
  | .ldF x => 0xF#4 ++ x ++ 0x29#8
  | .ldB x => 0xF#4 ++ x ++ 0x33#8
  | .ldMemVx x => 0xF#4 ++ x ++ 0x55#8
  | .ldVxMem x => 0xF#4 ++ x ++ 0x65#8

/-- The two bytes of an instruction in memory order (R51). -/
def encodeBytes (i : Instr) : List Byte :=
  [(encode i).extractLsb' 8 8, (encode i).extractLsb' 0 8]

end Sys2Proof
end

