-- ==== Sys2Proof/Config.lean ====
section
/-!
DEFINITION. What is fixed for a machine (00_scope.md rule R4): the parameters, the reset contents of memory, and the
FREE VALUES, constants with no body that stand for the answers of the devices.
-/

namespace Sys2Proof

/-- `MEM_OOR`: what address formation does with an address of 4096 or more (20_memory.md R48). -/
inductive MemOor where
  /-- the cell is the address modulo 4096 (the spec's default) -/
  | wrap
  /-- the access raises `MemoryRange` -/
  | fault
deriving DecidableEq, Repr

/-- `KEY_OOR`: what `Ex9E` and `ExA1` do with a key code above 15 (42_skip.md R107). -/
inductive KeyOor where
  /-- such a key is never pressed (the spec's default) -/
  | notPressed
  /-- the instruction raises `KeyRange` -/
  | fault
deriving DecidableEq, Repr

/-- The parameters of R4 that a rule reads while the core runs. They never change (log 2). -/
structure Params where
  /-- `STACK_DEPTH` (10_state.md R23) -/
  stackDepth : Nat
  /-- `SPEED`, steps per cycle (60_exceptions.md R165) -/
  speed : Nat
  /-- `MEM_OOR` -/
  memOor : MemOor
  /-- `KEY_OOR` -/
  keyOor : KeyOor
deriving DecidableEq, Repr

/-- The defaults of R4. DESIGN CHOICE (log 2; the spec's decisions D2, D8, D9, D18): unsafe for a claim about
`State.reset` alone, safe for a claim about every state, which holds for every choice of the parameters. -/
def Config.defaults : Params :=
  { stackDepth := 16, speed := 10, memOor := .wrap, keyOor := .notPressed }

/-- `MEM_SIZE` (R4, R41). -/
abbrev Config.memSize : Nat := 4096

/-- `PROG_BASE` (R4, R43, R45). -/
abbrev Config.progBase : Nat := 0x200

/-- `MAX_IMAGE` = `MEM_SIZE - PROG_BASE` (R4, R56). -/
abbrev Config.maxImage : Nat := Config.memSize - Config.progBase

/-- `FONT`: the 80 glyph bytes at 0x000-0x04F. PRESUMED (log 4): the conventional CHIP-8 font, which R36 gives as the
default from general knowledge; unsafe for a claim that reads the glyph bytes of `State.reset`. -/
def Config.font : Vector Byte 80 := #v[
  0xF0, 0x90, 0x90, 0x90, 0xF0, 0x20, 0x60, 0x20, 0x20, 0x70,
  0xF0, 0x10, 0xF0, 0x80, 0xF0, 0xF0, 0x10, 0xF0, 0x10, 0xF0,
  0x90, 0x90, 0xF0, 0x10, 0x10, 0xF0, 0x80, 0xF0, 0x10, 0xF0,
  0xF0, 0x80, 0xF0, 0x90, 0xF0, 0xF0, 0x10, 0x20, 0x40, 0x40,
  0xF0, 0x90, 0xF0, 0x90, 0xF0, 0xF0, 0x90, 0xF0, 0x10, 0xF0,
  0xF0, 0x90, 0xF0, 0x90, 0x90, 0xE0, 0x90, 0xE0, 0x90, 0xE0,
  0xF0, 0x80, 0x80, 0x80, 0xF0, 0xE0, 0x90, 0x90, 0x90, 0xE0,
  0xF0, 0x80, 0xF0, 0x80, 0xF0, 0xF0, 0x80, 0xF0, 0x80, 0x80]

/-- What memory holds at reset (R40, R43): the font at 0x000-0x04F, 0x00 above. This is what an address that the
memory list does not name reads as (log 4). -/
def Config.resetByte (a : Nat) : Byte :=
  if h : a < 80 then Config.font[a] else 0

/-- FREE VALUE (log 7; R181, ID11): the byte the random source gives at its n-th answer. No law. Safe. -/
opaque Config.randomByte : Nat → Byte

/-- FREE VALUE (log 8; R38, R179, ID12): the n-th answer of `isKeyPressed(k)`. No law. Safe. -/
opaque Config.keyPressed : Nat → Nibble → Bool

/-- `TONE_HZ`, which the source leaves open and no rule reads (R180; log 16). -/
opaque Config.toneHz : Nat

/-- `CADENCE_HZ`, nominally 60, which no rule reads (R170; log 17). -/
def Config.cadenceHz : Nat := 60

end Sys2Proof
end

