-- ==== Sys2Proof/Machine/State.lean ====
section
/-!
DEFINITION. The state of the core as plain data (10_state.md R10), the fault kinds, the refusals, and the state right
after reset (R40, R190).
-/

namespace Sys2Proof.Machine

/-- The memory of 4096 byte cells (R34, R41) as a list of (address, byte) pairs: addresses strictly rising, and no pair
equal to what an unlisted address reads as, `Config.resetByte`. -/
abbrev Memory := List Host.Cell

/-- The display framebuffer (R37): 64 columns of 32 rows, `FB[x][y]`; `true` is a set pixel. -/
abbrev Framebuffer := Vector (Vector Bool 32) 64

/-- The fault kinds with the information they record (R30, R151), and no others. They are raised into the state
(`State.fault`), and the machine stays in that faulted state (R157): no meaning and no step answers with the outcome
`fault` (log 10). All are safe: each is a fault of the spec. -/
inductive Fault where
  /-- code 1: raised by `step` on a word that matches no row, with the word and its address (R152). Safe. -/
  | unknownOpcode (op addr : Word)
  /-- code 2: raised by `2nnn` on a full stack, with the return address that was not pushed (R153). Safe. -/
  | stackOverflow (ret : Word)
  /-- code 3: raised by `00EE` on an empty stack (R154). Safe. -/
  | stackUnderflow
  /-- code 4: raised by address formation when `MEM_OOR = fault`, with the address, 4096 or more (R155). Safe. -/
  | memoryRange (addr : Nat)
  /-- code 5: raised by `Ex9E` and `ExA1` when `KEY_OOR = fault`, with the key code, above 15 (R156). Safe. -/
  | keyRange (key : Byte)
deriving DecidableEq, Repr

/-- What the model gives no meaning. No instruction is refused. -/
inductive Refusal where
  /-- an instruction that has no meaning yet; raised by no arm of `exec`. Safe. -/
  | notModelled (mnemonic : String)
  /-- `OutOfBounds`: raised by the host operation `load` for an image longer than 3584 bytes, which changes nothing and
  after which the host must not run cycles (R56, R193, ID6). Safe. -/
  | outOfBounds (len : Nat)
  /-- raised by the host operation `load` after the first `step` or `cycle` or a second time (R194, ID18). Safe. -/
  | loadOutsideContract
deriving DecidableEq, Repr

/-- The state of the core (R10), with the parameters it was built with and the counters of the free values. -/
structure State where
  /-- the parameters of R4; no operation changes them (log 2) -/
  params : Params
  /-- `mem` (R34) -/
  mem : Memory
  /-- `V0`..`VF` (R11) -/
  v : Vector Byte 16
  /-- `I` (R16) -/
  i : Word
  /-- `PC` (R18) -/
  pc : Word
  /-- the return addresses, the top last (R23) -/
  stack : List Word
  /-- `DT` (R25) -/
  dt : Byte
  /-- `ST` (R26) -/
  st : Byte
  /-- `paused` (R28) -/
  paused : Bool
  /-- `pending`, the register that is to receive the key (R29) -/
  pending : Option Nibble
  /-- `fault` (R30) -/
  fault : Option Fault
  /-- `audio_on` (R31) -/
  audioOn : Bool
  /-- `FB` (R37) -/
  fb : Framebuffer
  /-- the model's own: how many bytes the random source has answered (log 7) -/
  randomDraws : Nat
  /-- the model's own: how many `isKeyPressed` answers have been taken (log 8) -/
  keyDraws : Nat
deriving DecidableEq, Repr

/-- The state right after `reset` (R40, R190), memory as `Config.resetByte` with nothing listed. DESIGN CHOICE: `V0`-`VF`
and `I`, which the spec leaves unspecified, are 0 (log 1), and the parameters and `FB` are the spec's defaults (logs 2,
5). Unsafe for a claim about this state alone; `resetWith` is the reset with every other choice. -/
def State.reset : State where
  params := Config.defaults
  mem := []
  v := Vector.replicate 16 0
  i := 0
  pc := 0x200
  stack := []
  dt := 0
  st := 0
  paused := false
  pending := none
  fault := none
  audioOn := false
  fb := Vector.replicate 64 (Vector.replicate 32 false)
  randomDraws := 0
  keyDraws := 0

end Sys2Proof.Machine
end

