-- ==== Sys2Proof/Machine/Ops.lean ====
section
/-!
DEFINITION. The named operations over memory, registers, stack, framebuffer and the devices (20_memory.md, 10_state.md,
60_exceptions.md). Everything an instruction does to the state it does through these.
-/

namespace Sys2Proof.Machine

/-! ### Memory: one list in canonical form -/

/-- The byte a list gives address `a`: its entry, or what an unlisted address reads as. -/
def Memory.lookup : Memory → Nat → Byte
  | [], a => Config.resetByte a
  | (b, w) :: m, a => if a = b then w else Memory.lookup m a

/-- Enter the pair (a, v), keeping the addresses rising. -/
def Memory.enter : Memory → Nat → Byte → Memory
  | [], a, v => [(a, v)]
  | (b, w) :: m, a, v =>
    if a < b then (a, v) :: (b, w) :: m
    else if a = b then (a, v) :: m
    else (b, w) :: Memory.enter m a v

/-- Drop the entry of address `a`, if there is one. -/
def Memory.drop : Memory → Nat → Memory
  | [], _ => []
  | (b, w) :: m, a => if a = b then m else (b, w) :: Memory.drop m a

/-- `mem[c]` (R49): reading has no side effect. -/
def Memory.read (m : Memory) (c : Fin 4096) : Byte :=
  Memory.lookup m c.val

/-- `mem[c] <- v` (R49). Writing what an unlisted address reads as removes the entry, so equal memories are equal
lists. -/
def Memory.write (m : Memory) (c : Fin 4096) (v : Byte) : Memory :=
  if v = Config.resetByte c.val then Memory.drop m c.val else Memory.enter m c.val v

/-- The canonical form of a list whose addresses are all at least `lo`. -/
def Memory.wfFrom : Nat → Memory → Bool
  | _, [] => true
  | lo, (a, v) :: m =>
    decide (lo ≤ a) && decide (a < 4096) && decide (v ≠ Config.resetByte a) && Memory.wfFrom (a + 1) m

/-- The canonical form of memory: addresses strictly rising and below 4096, no entry equal to what an unlisted address
reads as. -/
def Memory.wf (m : Memory) : Bool := Memory.wfFrom 0 m

/-- The bytes of the cells `cs`, in order. -/
def readCells (m : Memory) : List (Fin 4096) → List Byte
  | [] => []
  | c :: cs => m.read c :: readCells m cs

/-- Write the bytes `bs` to the cells `cs`, in order. -/
def writeCells (m : Memory) : List (Fin 4096) → List Byte → Memory
  | c :: cs, b :: bs => writeCells (m.write c b) cs bs
  | _, _ => m

/-! ### Address formation -/

/-- `Cell(a)` (R48). -/
def cellOf (p : Params) (a : Nat) : Except Fault (Fin 4096) :=
  match p.memOor with
  | .wrap => .ok ⟨a % 4096, Nat.mod_lt a (by decide)⟩
  | .fault => if h : a < 4096 then .ok ⟨a, h⟩ else .error (.memoryRange a)

/-- The cells of the `n` addresses from `a` up, each formed on its own (R47), all before any access (R50). The lowest
address that is out of range is the one reported (log 13). -/
def cellsOf (p : Params) (a : Nat) : Nat → Except Fault (List (Fin 4096))
  | 0 => .ok []
  | n + 1 =>
    match cellOf p a with
    | .error f => .error f
    | .ok c =>
      match cellsOf p (a + 1) n with
      | .error f => .error f
      | .ok cs => .ok (c :: cs)

/-- `Fetch16(a)` (R53): the byte at `Cell(a)` above the byte at `Cell(a + 1)`. -/
def fetch16 (p : Params) (m : Memory) (a : Nat) : Except Fault Word :=
  match cellOf p a with
  | .error f => .error f
  | .ok c0 =>
    match cellOf p (a + 1) with
    | .error f => .error f
    | .ok c1 => .ok (wordOfBytes (m.read c0) (m.read c1))

/-! ### Registers, program counter, stack -/

/-- `V[x]` (R7, R11). -/
def readV (s : State) (x : Nibble) : Byte := s.v[x.toNat]'x.isLt

/-- `V[x] <- b` (R7). No register is hardwired (R12). -/
def writeV (s : State) (x : Nibble) (b : Byte) : State :=
  { s with v := s.v.set x.toNat b x.isLt }

/-- `I <- w` (R7, R17: all 16 bits are kept). -/
def writeI (s : State) (w : Word) : State := { s with i := w }

/-- `PC <- target` (R7). -/
def jumpTo (s : State) (target : Word) : State := { s with pc := target }

/-- `PC <- (PC + 2) mod 2^16`: the advance of a step (R18, R19) and the skip of R100. -/
def advancePc (s : State) : State := { s with pc := s.pc + 2 }

/-- `if b: skip()` (R100). -/
def skipIf (s : State) (b : Bool) : State := { s with pc := if b then s.pc + 2 else s.pc }

/-- `push(v)` (R24). -/
def push (s : State) (w : Word) : Except Fault State :=
  if s.stack.length = s.params.stackDepth then .error (.stackOverflow w)
  else .ok { s with stack := s.stack ++ [w] }

/-- `pop()` (R24). -/
def pop (s : State) : Except Fault (Word × State) :=
  match s.stack.getLast? with
  | none => .error .stackUnderflow
  | some w => .ok (w, { s with stack := s.stack.dropLast })

/-! ### Taking a fault -/

/-- `raise E(info)` (R150): the sticky fault status is set; nothing else changes. -/
def raise (s : State) (f : Fault) : State := { s with fault := some f }

/-- How an instruction ends: with the state its rule gives, or with a fault raised before its first write, in the state
it began in, whose `PC` has advanced (R150, R158). -/
def finish (s : State) : Except Fault State → Host.Outcome State Fault Refusal
  | .ok t => .next t
  | .error f => .next (raise s f)

/-- The numeric code of R151. -/
def Fault.code : Fault → Nat
  | .unknownOpcode _ _ => 1
  | .stackOverflow _ => 2
  | .stackUnderflow => 3
  | .memoryRange _ => 4
  | .keyRange _ => 5

/-- The fault an operation returns to its caller (R150, R157): the one the state records. -/
def reported (s : State) : Option Fault := s.fault

/-- Faulted or paused: `step` has no effect (R62, R28, R157). -/
def halted (s : State) : Bool := s.fault.isSome || s.paused

/-! ### Devices -/

/-- `FB[x mod 64][y mod 32]` (R177). -/
def pixelAt (fb : Framebuffer) (x y : Nat) : Bool :=
  (fb[x % 64]'(Nat.mod_lt x (by decide)))[y % 32]'(Nat.mod_lt y (by decide))

/-- `FB[x mod 64][y mod 32] <- b`. -/
def setPixelTo (fb : Framebuffer) (x y : Nat) (b : Bool) : Framebuffer :=
  fb.set (x % 64) ((fb[x % 64]'(Nat.mod_lt x (by decide))).set (y % 32) b (Nat.mod_lt y (by decide)))
    (Nat.mod_lt x (by decide))

/-- Display `clear()` (R176). -/
def clearDisplay : Framebuffer := Vector.replicate 64 (Vector.replicate 32 false)

/-- Display `setPixel(x, y) -> erased` (R177): toggles the cell and answers what it held. -/
def setPixel (fb : Framebuffer) (x y : Nat) : Framebuffer × Bool :=
  (setPixelTo fb x y (!pixelAt fb x y), pixelAt fb x y)

/-- The columns `cs` of one sprite row at (x, y): each set bit calls `setPixel`, bit 7 leftmost (R82, R83; log 9). The
Bool gathers whether any pixel was erased. -/
def drawColumns (x y : Nat) (row : Byte) : List Nat → Framebuffer × Bool → Framebuffer × Bool
  | [], d => d
  | c :: cs, d =>
    if row.getLsbD (7 - c) then
      drawColumns x y row cs ((setPixel d.1 (x + c) y).1, d.2 || (setPixel d.1 (x + c) y).2)
    else drawColumns x y row cs d

/-- The rows of a sprite at (x, y), one below the other (R82). -/
def drawRows (x : Nat) : Nat → List Byte → Framebuffer × Bool → Framebuffer × Bool
  | _, [], d => d
  | y, row :: rows, d => drawRows x (y + 1) rows (drawColumns x y row [0, 1, 2, 3, 4, 5, 6, 7] d)

/-- `RandomByte()` (R122, R181): the next answer of the random source. -/
def randomByte (s : State) : Byte × State :=
  (Config.randomByte s.randomDraws, { s with randomDraws := s.randomDraws + 1 })

/-- `KeyDown(k)` (R107): an answer of the input device for a key code up to 15. -/
def keyIsDown (s : State) (k : Byte) : Except Fault (Bool × State) :=
  if k.toNat ≤ 15 then
    .ok (Config.keyPressed s.keyDraws (k.setWidth 4), { s with keyDraws := s.keyDraws + 1 })
  else
    match s.params.keyOor with
    | .notPressed => .ok (false, s)
    | .fault => .error (.keyRange k)

end Sys2Proof.Machine
end

