-- ==== Sys2Proof/Machine/Flags.lean ====
section
/-!
DEFINITION. The values `VF` takes as a flag (10_state.md R13; 43_alu.md R117-R121; 40_display.md R82) and the order in
which a flag instruction writes (30_encoding.md R64).
-/

namespace Sys2Proof.Machine

/-- A flag as a byte: 1 or 0. -/
def flagByte (b : Bool) : Byte := if b then 1 else 0

/-- Carry of `8xy4`: the exact sum exceeds 255 (R117). -/
def carryOf (a b : Byte) : Bool := decide (255 < a.toNat + b.toNat)

/-- No borrow of `8xy5` and `8xy7`: the minuend is strictly above the subtrahend (R118, R120). -/
def noBorrowOf (minuend subtrahend : Byte) : Bool := decide (subtrahend.toNat < minuend.toNat)

/-- The bit `8xy6` shifts out (R119). -/
def shiftedOutRight (a : Byte) : Bool := a.getLsbD 0

/-- The bit `8xyE` shifts out (R121). -/
def shiftedOutLeft (a : Byte) : Bool := a.getLsbD 7

/-- `VF <- flag`, then `Vx <- result`: with x = F the result is the final value (R64, C5; log 11). -/
def writeFlagged (s : State) (x : Nibble) (flag : Bool) (result : Byte) : State :=
  writeV (writeV s regF (flagByte flag)) x result

end Sys2Proof.Machine
end

