-- ==== Sys2Proof/Machine/Operands.lean ====
section
/-!
DEFINITION. The operand forms (30_encoding.md R67) and the results of the operations that are more than one bit-vector
operator: extensions, glyph addresses, decimal digits, register runs.
-/

namespace Sys2Proof.Machine

/-- `zext_16(nnn)` (R6, R67). -/
def zextAddr (nnn : Addr12) : Word := nnn.setWidth 16

/-- `zext_16(b)` for a byte (R6). -/
def zextByte (b : Byte) : Word := b.setWidth 16

/-- A key code as the byte a register receives (R172). -/
def zextKey (k : Nibble) : Byte := k.setWidth 8

/-- `Vx * 5`, the address of glyph `Vx`, no masking (R133). -/
def glyphAddr (b : Byte) : Word := zextByte b * 5

/-- The hundreds, tens and ones digits of a byte, in the order they are stored (R134). -/
def decimalDigits (b : Byte) : List Byte :=
  [BitVec.ofNat 8 (b.toNat / 100), BitVec.ofNat 8 (b.toNat / 10 % 10), BitVec.ofNat 8 (b.toNat % 10)]

/-- `V0`..`Vx`, `V0` first (R135). -/
def registersUpTo (v : Vector Byte 16) (x : Nibble) : List Byte :=
  v.toList.take (x.toNat + 1)

/-- Load the bytes `bs` into consecutive registers from number `r` on (R136). -/
def loadRegisters : Nat → List Byte → Vector Byte 16 → Vector Byte 16
  | _, [], v => v
  | r, b :: bs, v => loadRegisters (r + 1) bs (v.setIfInBounds r b)

/-- The cells of the `n` bytes from `I` (R130). -/
def cellsAtI (s : State) (n : Nat) : Except Fault (List (Fin 4096)) :=
  cellsOf s.params s.i.toNat n

end Sys2Proof.Machine
end

