-- ==== Sys2Proof/Machine/Alu.lean ====
section
/-!
DEFINITION. Register loads and arithmetic (43_alu.md). Operands are read from the state before the first write
(30_encoding.md R64); arithmetic is on unsigned bytes and wraps (R110).
-/

namespace Sys2Proof.Machine

/-- 6xkk `LD Vx, kk` (R111). -/
def execLdImm (x : Nibble) (kk : Byte) (s : State) : Host.Outcome State Fault Refusal :=
  .next (writeV s x kk)

/-- 7xkk `ADD Vx, kk` (R112): no flag. -/
def execAddImm (x : Nibble) (kk : Byte) (s : State) : Host.Outcome State Fault Refusal :=
  .next (writeV s x (readV s x + kk))

/-- 8xy0 `LD Vx, Vy` (R113). -/
def execLdReg (x y : Nibble) (s : State) : Host.Outcome State Fault Refusal :=
  .next (writeV s x (readV s y))

/-- 8xy1 `OR Vx, Vy` (R114): no flag. -/
def execOrReg (x y : Nibble) (s : State) : Host.Outcome State Fault Refusal :=
  .next (writeV s x (readV s x ||| readV s y))

/-- 8xy2 `AND Vx, Vy` (R115): no flag. -/
def execAndReg (x y : Nibble) (s : State) : Host.Outcome State Fault Refusal :=
  .next (writeV s x (readV s x &&& readV s y))

/-- 8xy3 `XOR Vx, Vy` (R116): no flag. -/
def execXorReg (x y : Nibble) (s : State) : Host.Outcome State Fault Refusal :=
  .next (writeV s x (readV s x ^^^ readV s y))

/-- 8xy4 `ADD Vx, Vy` (R117). -/
def execAddReg (x y : Nibble) (s : State) : Host.Outcome State Fault Refusal :=
  .next (writeFlagged s x (carryOf (readV s x) (readV s y)) (readV s x + readV s y))

/-- 8xy5 `SUB Vx, Vy` (R118). -/
def execSubReg (x y : Nibble) (s : State) : Host.Outcome State Fault Refusal :=
  .next (writeFlagged s x (noBorrowOf (readV s x) (readV s y)) (readV s x - readV s y))

/-- 8xy6 `SHR Vx` (R119); `Vy` is not read (R66). -/
def execShr (x _y : Nibble) (s : State) : Host.Outcome State Fault Refusal :=
  .next (writeFlagged s x (shiftedOutRight (readV s x)) (readV s x >>> 1))

/-- 8xy7 `SUBN Vx, Vy` (R120). -/
def execSubnReg (x y : Nibble) (s : State) : Host.Outcome State Fault Refusal :=
  .next (writeFlagged s x (noBorrowOf (readV s y) (readV s x)) (readV s y - readV s x))

/-- 8xyE `SHL Vx` (R121); `Vy` is not read (R66). -/
def execShl (x _y : Nibble) (s : State) : Host.Outcome State Fault Refusal :=
  .next (writeFlagged s x (shiftedOutLeft (readV s x)) (readV s x <<< 1))

/-- Cxkk `RND Vx, kk` (R122): the byte is a free value (log 7). -/
def execRnd (x : Nibble) (kk : Byte) (s : State) : Host.Outcome State Fault Refusal :=
  .next (writeV (randomByte s).2 x ((randomByte s).1 &&& kk))

end Sys2Proof.Machine
end

