-- ==== Sys2Proof/Machine/Control.lean ====
section
/-!
DEFINITION. Control transfer (41_control.md). `PC` has advanced, so it holds a + 2 for the instruction at a (R62).
-/

namespace Sys2Proof.Machine

/-- 00EE `RET` (R91). -/
def execRet (s : State) : Host.Outcome State Fault Refusal :=
  finish s
    (match pop s with
    | .ok (w, t) => .ok (jumpTo t w)
    | .error f => .error f)

/-- 1nnn `JP nnn` (R92). -/
def execJp (nnn : Addr12) (s : State) : Host.Outcome State Fault Refusal :=
  .next (jumpTo s (zextAddr nnn))

/-- 2nnn `CALL nnn` (R93): the advanced `PC` is pushed (C2). -/
def execCall (nnn : Addr12) (s : State) : Host.Outcome State Fault Refusal :=
  finish s
    (match push s s.pc with
    | .ok t => .ok (jumpTo t (zextAddr nnn))
    | .error f => .error f)

/-- Bnnn `JP V0, nnn` (R94). -/
def execJpV0 (nnn : Addr12) (s : State) : Host.Outcome State Fault Refusal :=
  .next (jumpTo s (zextAddr nnn + zextByte (readV s reg0)))

end Sys2Proof.Machine
end

