-- ==== Sys2Proof/Machine/Display.lean ====
section
/-!
DEFINITION. The display instructions (40_display.md). `PC` has advanced (30_encoding.md R62).
-/

namespace Sys2Proof.Machine

/-- 00E0 `CLS` (R81). -/
def execCls (s : State) : Host.Outcome State Fault Refusal :=
  .next { s with fb := clearDisplay }

/-- The sprite drawn from the bytes of the cells `cs` at (Vx, Vy), and `VF` from the erasures (R82). -/
def drawSprite (s : State) (x y : Nibble) (cs : List (Fin 4096)) : State :=
  writeV
    { s with fb := (drawRows (readV s x).toNat (readV s y).toNat (readCells s.mem cs) (s.fb, false)).1 }
    regF
    (flagByte (drawRows (readV s x).toNat (readV s y).toNat (readCells s.mem cs) (s.fb, false)).2)

/-- Dxyn `DRW Vx, Vy, n` (R82, R83, R84). -/
def execDrw (x y n : Nibble) (s : State) : Host.Outcome State Fault Refusal :=
  finish s
    (match cellsAtI s n.toNat with
    | .ok cs => .ok (drawSprite s x y cs)
    | .error f => .error f)

end Sys2Proof.Machine
end

