-- ==== Sys2Proof/Machine/IndexMemory.lean ====
section
/-!
DEFINITION. Index register and memory transfer (44_index_memory.md). The only addressing mode is `I` plus a small
offset, and `Fx33`, `Fx55` and `Fx65` leave `I` unchanged (R130).
-/

namespace Sys2Proof.Machine

/-- Annn `LD I, nnn` (R131). -/
def execLdI (nnn : Addr12) (s : State) : Host.Outcome State Fault Refusal :=
  .next (writeI s (zextAddr nnn))

/-- Fx1E `ADD I, Vx` (R132): no flag. -/
def execAddI (x : Nibble) (s : State) : Host.Outcome State Fault Refusal :=
  .next (writeI s (s.i + zextByte (readV s x)))

/-- Fx29 `LD F, Vx` (R133). -/
def execLdF (x : Nibble) (s : State) : Host.Outcome State Fault Refusal :=
  .next (writeI s (glyphAddr (readV s x)))

/-- Store the bytes `bs` at `I` and up: all addresses are formed first (R50). -/
def storeAtI (s : State) (bs : List Byte) : Except Fault State :=
  match cellsAtI s bs.length with
  | .ok cs => .ok { s with mem := writeCells s.mem cs bs }
  | .error f => .error f

/-- Load `n` bytes from `I` and up into `V0` and up: all addresses are formed first (R50). -/
def loadAtI (s : State) (n : Nat) : Except Fault State :=
  match cellsAtI s n with
  | .ok cs => .ok { s with v := loadRegisters 0 (readCells s.mem cs) s.v }
  | .error f => .error f

/-- Fx33 `LD B, Vx` (R134). -/
def execLdB (x : Nibble) (s : State) : Host.Outcome State Fault Refusal :=
  finish s (storeAtI s (decimalDigits (readV s x)))

/-- Fx55 `LD [I], Vx` (R135). -/
def execLdMemVx (x : Nibble) (s : State) : Host.Outcome State Fault Refusal :=
  finish s (storeAtI s (registersUpTo s.v x))

/-- Fx65 `LD Vx, [I]` (R136). -/
def execLdVxMem (x : Nibble) (s : State) : Host.Outcome State Fault Refusal :=
  finish s (loadAtI s (x.toNat + 1))

end Sys2Proof.Machine
end

