-- ==== Sys2Proof/Machine/Skip.lean ====
section
/-!
DEFINITION. The conditional skips (42_skip.md). A skip adds 2 more to the advanced `PC` (R100).
-/

namespace Sys2Proof.Machine

/-- 3xkk `SE Vx, kk` (R101). -/
def execSeImm (x : Nibble) (kk : Byte) (s : State) : Host.Outcome State Fault Refusal :=
  .next (skipIf s (readV s x == kk))

/-- 4xkk `SNE Vx, kk` (R102). -/
def execSneImm (x : Nibble) (kk : Byte) (s : State) : Host.Outcome State Fault Refusal :=
  .next (skipIf s (readV s x != kk))

/-- 5xy0 `SE Vx, Vy` (R103). -/
def execSeReg (x y : Nibble) (s : State) : Host.Outcome State Fault Refusal :=
  .next (skipIf s (readV s x == readV s y))

/-- 9xy0 `SNE Vx, Vy` (R104). -/
def execSneReg (x y : Nibble) (s : State) : Host.Outcome State Fault Refusal :=
  .next (skipIf s (readV s x != readV s y))

/-- Ex9E `SKP Vx` (R105, R107). -/
def execSkp (x : Nibble) (s : State) : Host.Outcome State Fault Refusal :=
  finish s
    (match keyIsDown s (readV s x) with
    | .ok (down, t) => .ok (skipIf t down)
    | .error f => .error f)

/-- ExA1 `SKNP Vx` (R106, R107). -/
def execSknp (x : Nibble) (s : State) : Host.Outcome State Fault Refusal :=
  finish s
    (match keyIsDown s (readV s x) with
    | .ok (down, t) => .ok (skipIf t (!down))
    | .error f => .error f)

end Sys2Proof.Machine
end

