-- ==== Sys2Proof/Machine/TimerKey.lean ====
section
/-!
DEFINITION. The timer moves, the key wait (45_timer_key.md), and the key resume path that ends the wait
(60_exceptions.md R172-R175).
-/

namespace Sys2Proof.Machine

/-- Fx07 `LD Vx, DT` (R141). -/
def execLdVxDt (x : Nibble) (s : State) : Host.Outcome State Fault Refusal :=
  .next (writeV s x s.dt)

/-- Fx0A `LD Vx, K` (R142): the core waits; `Vx` is written by `keyDown`. -/
def execLdVxK (x : Nibble) (s : State) : Host.Outcome State Fault Refusal :=
  .next { s with paused := true, pending := some x }

/-- Fx15 `LD DT, Vx` (R143). -/
def execLdDtVx (x : Nibble) (s : State) : Host.Outcome State Fault Refusal :=
  .next { s with dt := readV s x }

/-- Fx18 `LD ST, Vx` (R144). -/
def execLdStVx (x : Nibble) (s : State) : Host.Outcome State Fault Refusal :=
  .next { s with st := readV s x }

/-- The host operation `key_down(k)` (R172): the key code goes into the pending register and the core resumes; without a
pending register, or when faulted, nothing changes (R157, R173). -/
def keyDown (k : Nibble) (s : State) : State :=
  match s.fault, s.pending with
  | none, some x => { writeV s x (zextKey k) with pending := none, paused := false }
  | _, _ => s

/-- The keys newly pressed at once, bit k of `keys` for key k, delivered one by one in increasing order of key code
(R174; log 19). -/
def keysDown (keys : Word) (s : State) : State :=
  ([0, 1, 2, 3, 4, 5, 6, 7, 8, 9, 10, 11, 12, 13, 14, 15] : List Nat).foldl
    (fun t k => if keys.getLsbD k then keyDown (BitVec.ofNat 4 k) t else t) s

end Sys2Proof.Machine
end

