-- ==== Sys2Proof/Machine/Fetch.lean ====
section
/-!
DEFINITION. The part of `step` before `Execute(ins)` (30_encoding.md R62), and the placing of a word where the next step
fetches.
-/

namespace Sys2Proof.Machine

/-- What a step has found before it executes. -/
inductive Fetched where
  /-- the step ends in this state: the core was halted, or the fetch or the decoder raised a fault -/
  | ends (s : State)
  /-- the instruction to execute and the state to execute it from, `PC` advanced -/
  | runs (i : Instr) (s : State)
deriving DecidableEq, Repr

/-- Fetch, decode and advance (R62). A fault of the fetch leaves `PC` unchanged (R155); an unknown opcode is raised after
the advance with the word and its address (R152). -/
def fetchDecode (s : State) : Fetched :=
  if halted s then .ends s
  else
    match fetch16 s.params s.mem s.pc.toNat with
    | .error f => .ends (raise s f)
    | .ok op =>
      match decode op with
      | .ok i => .runs i (advancePc s)
      | .error _ => .ends (raise (advancePc s) (.unknownOpcode op s.pc))

/-- A word stored big-endian at the `PC` (R51), the core neither faulted nor paused, so that the next step fetches it
(log 14). The addresses wrap. -/
def placeWord (s : State) (w : Word) : State :=
  { s with
    mem := (s.mem.write ⟨s.pc.toNat % 4096, Nat.mod_lt _ (by decide)⟩ (w.extractLsb' 8 8)).write
      ⟨(s.pc.toNat + 1) % 4096, Nat.mod_lt _ (by decide)⟩ (w.extractLsb' 0 8)
    paused := false
    pending := none
    fault := none }

end Sys2Proof.Machine
end

