-- ==== Sys2Proof/Machine/Step.lean ====
section
/-!
DEFINITION. The host operation `step` (30_encoding.md R62): one fetch, decode and execute.
-/

namespace Sys2Proof.Machine

/-- `step()` (R62). It answers a next state from every state: a fault is recorded in the state, and a faulted or paused
core stays as it is (log 10). -/
def step (s : State) : Host.Outcome State Fault Refusal :=
  match fetchDecode s with
  | .ends t => .next t
  | .runs i t => exec i t

/-- `s` with the instruction whose bits are `w` (bits above `nbits` zero) where `step` fetches next (log 14). -/
def State.withFetchWord (s : State) (nbits w : Nat) : State :=
  placeWord s (BitVec.ofNat 16 (w % 2 ^ nbits))

end Sys2Proof.Machine
end

