-- ==== Sys2Proof/Machine/Cycle.lean ====
section
/-!
DEFINITION. The host operation `cycle` (60_exceptions.md section 3): a batch of steps, the timer step, the audio and
render signals.
-/

namespace Sys2Proof.Machine

/-- Up to `n` steps, stopping when the core is paused or faulted (R165, R166). -/
def runBatch : Nat → State → Host.Outcome State Fault Refusal
  | 0, s => .next s
  | n + 1, s =>
    if halted s then .next s
    else
      match step s with
      | .next t => runBatch n t
      | .fault f => .fault f
      | .refused r => .refused r

/-- A timer counts down to 0 and stays there (R167). -/
def countDown (b : Byte) : Byte := if b = 0 then 0 else b - 1

/-- The timer step (R167): only while not paused (C1; log 20). -/
def timerStep (s : State) : State :=
  if s.paused then s else { s with dt := countDown s.dt, st := countDown s.st }

/-- The audio signal (R168). -/
def audioSignal (s : State) : State := { s with audioOn := decide (0 < s.st.toNat) }

/-- What follows the batch in a cycle that does not fault (R167, R168); a fault skips it (R171). -/
def endCycle (s : State) : State :=
  if s.fault.isSome then s else audioSignal (timerStep s)

/-- `cycle()` (R165). A faulted core does nothing (R157). -/
def cycle (s : State) : Host.Outcome State Fault Refusal :=
  if s.fault.isSome then .next s
  else
    match runBatch s.params.speed s with
    | .next t => .next (endCycle t)
    | .fault f => .fault f
    | .refused r => .refused r

/-- A call to the audio device or the display at the end of a cycle (R178, R180; log 16). -/
inductive DeviceCall where
  /-- `play(frequencyHz)` -/
  | play (frequencyHz : Nat)
  /-- `stop()` -/
  | stop
  /-- `render()` -/
  | render
deriving DecidableEq, Repr

/-- The calls made at the end of a cycle that leaves the core in state `t`: `play(TONE_HZ)` or `stop()`, then `render()`
(R168, R169); none when it faulted (R157, R171). -/
def callsAtEnd (t : State) : List DeviceCall :=
  if t.fault.isSome then []
  else [if t.audioOn then .play Config.toneHz else .stop, .render]

/-- The calls of `cycle` from `s`. -/
def cycleCalls (s : State) : List DeviceCall :=
  match cycle s with
  | .next t => callsAtEnd t
  | _ => []

end Sys2Proof.Machine
end

