-- ==== Sys2Proof/Machine/Session.lean ====
section
/-!
DEFINITION. The host's side: `reset` with every choice the spec leaves open, the program loader, and the five operations
in the order the contract allows (00_scope.md R2; 20_memory.md R56; 70_reset_and_hazards.md R190-R194).
-/

namespace Sys2Proof.Machine

/-- The parameters that only `reset` reads (R4, R40): `FONT`, `REG_INIT`, `FB_INIT`. -/
structure ResetInit where
  /-- `FONT` (R35, R36) -/
  font : Vector Byte 80
  /-- `REG_INIT`: what `V0`-`VF` happen to hold (R40) -/
  v : Vector Byte 16
  /-- `REG_INIT`: what `I` happens to hold (R40) -/
  i : Word
  /-- `FB_INIT` (R40) -/
  fb : Framebuffer
deriving DecidableEq, Repr

/-- The choices behind `State.reset` (logs 1, 4, 5). -/
def ResetInit.default : ResetInit where
  font := Config.font
  v := Vector.replicate 16 0
  i := 0
  fb := clearDisplay

/-- Write the bytes of a list to the cells from address `a` up, addresses modulo 4096. -/
def writeFrom (m : Memory) : Nat → List Byte → Memory
  | _, [] => m
  | a, b :: bs => writeFrom (m.write ⟨a % 4096, Nat.mod_lt a (by decide)⟩ b) (a + 1) bs

/-- `reset()` (R190) with every parameter of R4 and every unspecified value as given: memory zero above the font, the
font at 0x000, `PC` = 0x200, and the rest as R40 tabulates. -/
def resetWith (p : Params) (init : ResetInit) : State :=
  { State.reset with
    params := p
    mem := writeFrom [] 0 init.font.toList
    v := init.v
    i := init.i
    fb := init.fb }

/-- `load(image)` (R56): the image goes to 0x200 and up, nothing else changes; an image longer than 3584 bytes fails with
`OutOfBounds` and changes nothing. -/
def load (image : List Byte) (s : State) : Host.Outcome State Fault Refusal :=
  if Config.maxImage < image.length then .refused (.outOfBounds image.length)
  else .next { s with mem := writeFrom s.mem Config.progBase image }

/-- A session: the core, and whether `load` is still allowed (R193, R194; log 15). -/
structure Session where
  core : State
  mayLoad : Bool
deriving DecidableEq, Repr

/-- The five operations of the host (R2). -/
inductive HostOp where
  /-- `reset`: a new session, with what the unspecified values happen to be -/
  | reset (init : ResetInit)
  /-- `load(image)` -/
  | load (image : List Byte)
  /-- `step` -/
  | step
  /-- `cycle` -/
  | cycle
  /-- `key_down(k)` -/
  | keyDown (k : Nibble)
deriving DecidableEq, Repr

/-- The core part of an outcome, put back into a session. -/
def toSession (mayLoad : Bool) : Host.Outcome State Fault Refusal → Host.Outcome Session Fault Refusal
  | .next t => .next { core := t, mayLoad := mayLoad }
  | .fault f => .fault f
  | .refused r => .refused r

/-- One operation of the host, run to completion (R2, R55). `reset` keeps the parameters and goes on with fresh free
values (log 22); a `load` out of order is refused (R194). -/
def perform (op : HostOp) (c : Session) : Host.Outcome Session Fault Refusal :=
  match op with
  | .reset init =>
    .next
      { core := { resetWith c.core.params init with randomDraws := c.core.randomDraws, keyDraws := c.core.keyDraws }
        mayLoad := true }
  | .load image => if c.mayLoad then toSession false (load image c.core) else .refused .loadOutsideContract
  | .step => toSession false (step c.core)
  | .cycle => toSession false (cycle c.core)
  | .keyDown k => .next { c with core := keyDown k c.core }

end Sys2Proof.Machine
end

