-- ==== Sys2Proof/Safety.lean ====
section
/-!
DEFINITION. The terms in which claims are stated: the classification of states, the invariant of the core, what each
instruction may write (10_state.md R33), and the addresses and pixels an instruction reaches, each in the spec's own
arithmetic.
-/

namespace Sys2Proof.Safety

open Sys2Proof.Machine

/-- The classification of R187. -/
inductive RunStatus where
  /-- `fault != none`: never a good end -/
  | faulted
  /-- waiting for a key -/
  | paused
  | running
deriving DecidableEq, Repr

/-- The status of a state (R187). -/
def statusOf (s : State) : RunStatus :=
  if s.fault.isSome then .faulted else if s.paused then .paused else .running

/-- A safe state has recorded no fault (R157, R187). -/
def safe (s : State) : Bool := s.fault.isNone

/-- What a recorded fault says of the state it left (R152-R156, R158). -/
def faultFits (s : State) : Fault → Prop
  | .unknownOpcode op a => decode op = .error (.unknown op) ∧ s.pc = a + 2
  | .stackOverflow w => s.stack.length = s.params.stackDepth ∧ s.pc = w
  | .stackUnderflow => s.stack = []
  | .memoryRange a => s.params.memOor = .fault ∧ 4096 ≤ a
  | .keyRange k => s.params.keyOor = .fault ∧ 15 < k.toNat

/-- The invariant of the core: memory is canonical; paused iff a register is pending (R29); the stack fits (R23); a
faulted core is not paused, and its fault fits the state it left (R158). -/
structure Inv (s : State) : Prop where
  memory : s.mem.wf = true
  pause : s.paused = true ↔ s.pending ≠ none
  depth : s.stack.length ≤ s.params.stackDepth
  halt : s.fault ≠ none → s.paused = false
  fits : ∀ f, s.fault = some f → faultFits s f

/-- Every byte of memory reads the same in both states. -/
def SameBytes (s t : State) : Prop := ∀ a : Fin 4096, t.mem.read a = s.mem.read a

/-- `t` is `s` but for the general registers, and of these only the ones `w` names may differ. -/
def OnlyRegs (w : Nibble → Prop) (s t : State) : Prop :=
  t = { s with v := t.v } ∧ (∀ r, ¬ w r → readV t r = readV s r) ∧ SameBytes s t

/-- `t` is `s` but for `PC`. -/
def OnlyPc (s t : State) : Prop := t = { s with pc := t.pc } ∧ SameBytes s t

/-- The words that decode to the instruction `mk` makes of their fields are exactly those with `op & mask = pattern`
(R63, R68). -/
def EncodedBy (pattern mask : Word) (mk : Word → Instr) : Prop :=
  ∀ op : Word, op &&& mask = pattern ↔ decode op = .ok (mk op)

/-- The cell of address `a` when it is formed without a fault: `a mod 4096` (R48). -/
def cellAt (a : Nat) : Fin 4096 := ⟨a % 4096, Nat.mod_lt a (by decide)⟩

/-! ### What an instruction may write (R33) -/

/-- The general registers an instruction may write: its destination, `VF` as a flag (R13), `V0`..`Vx` for `Fx65`. -/
def mayWriteV : Instr → Nibble → Bool
  | .ldImm x _, r | .addImm x _, r | .ldReg x _, r | .orReg x _, r | .andReg x _, r | .xorReg x _, r => r == x
  | .addReg x _, r | .subReg x _, r | .shr x _, r | .subnReg x _, r | .shl x _, r => r == x || r == regF
  | .rnd x _, r | .ldVxDt x, r => r == x
  | .drw _ _ _, r => r == regF
  | .ldVxMem x, r => decide (r.toNat ≤ x.toNat)
  | _, _ => false

/-- The instructions that write `PC` besides the advance (R22). -/
def mayWritePc : Instr → Bool
  | .ret | .jp _ | .call _ | .jpV0 _ => true
  | .seImm _ _ | .sneImm _ _ | .seReg _ _ | .sneReg _ _ | .skp _ | .sknp _ => true
  | _ => false

/-- The instructions that write `I` (R16). -/
def mayWriteI : Instr → Bool
  | .ldI _ | .addI _ | .ldF _ => true
  | _ => false

/-- The instructions that write the stack (R23). -/
def mayWriteStack : Instr → Bool
  | .ret | .call _ => true
  | _ => false

/-- The instructions that write the framebuffer (R37). -/
def mayWriteFb : Instr → Bool
  | .cls | .drw _ _ _ => true
  | _ => false

/-- The instructions that write memory (R46). -/
def mayWriteMem : Instr → Bool
  | .ldB _ | .ldMemVx _ => true
  | _ => false

/-- How many bytes from `I` an instruction accesses (R46). -/
def bytesAtI : Instr → Nat
  | .drw _ _ n => n.toNat
  | .ldB _ => 3
  | .ldMemVx x => x.toNat + 1
  | .ldVxMem x => x.toNat + 1
  | _ => 0

/-- The instructions that raise a fault of their own (R151). -/
def mayRaise : Instr → Bool
  | .ret | .call _ | .drw _ _ _ | .ldB _ | .ldMemVx _ | .ldVxMem _ | .skp _ | .sknp _ => true
  | _ => false

/-- Every element of the state that R33 does not let `i` write is the same in both states. The parameters are never
written, the two counters count the answers of the devices, and `audio_on` is written by no instruction (R31). -/
structure WithinFootprint (i : Instr) (s t : State) : Prop where
  params : t.params = s.params
  regs : ∀ r, mayWriteV i r = false → readV t r = readV s r
  pc : mayWritePc i = false → t.pc = s.pc
  index : mayWriteI i = false → t.i = s.i
  stack : mayWriteStack i = false → t.stack = s.stack
  dt : (∀ x, i ≠ .ldDtVx x) → t.dt = s.dt
  st : (∀ x, i ≠ .ldStVx x) → t.st = s.st
  pause : (∀ x, i ≠ .ldVxK x) → t.paused = s.paused ∧ t.pending = s.pending
  audio : t.audioOn = s.audioOn
  fb : mayWriteFb i = false → t.fb = s.fb
  bytes : ∀ a : Fin 4096, (mayWriteMem i = false ∨ ∀ r < bytesAtI i, a ≠ cellAt (s.i.toNat + r)) →
    t.mem.read a = s.mem.read a
  fault : mayRaise i = false → t.fault = s.fault
  random : (∀ x kk, i ≠ .rnd x kk) → t.randomDraws = s.randomDraws
  keys : (∀ x, i ≠ .skp x) → (∀ x, i ≠ .sknp x) → t.keyDraws = s.keyDraws

/-! ### Addresses and pixels -/

/-- The `n` cells from `I` up, in order. -/
def cellsFromI (s : State) (n : Nat) : List (Fin 4096) := (List.range n).map (fun r => cellAt (s.i.toNat + r))

/-- The `n` bytes from `I` are formed without a fault: there are none, the addresses wrap, or all are below 4096 (R48,
R50). -/
def reachesAtI (s : State) (n : Nat) : Prop :=
  n = 0 ∨ s.params.memOor = .wrap ∨ s.i.toNat + n ≤ 4096

/-- Bit of the sprite of `n` rows from `I`, drawn at (`x0`, `y0`), that falls on column `cx` and row `cy` (R82, R83): the
display takes coordinates modulo 64 and 32, and bit 7 of a row is its leftmost pixel. -/
def spriteCovers (s : State) (x0 y0 n cx cy : Nat) : Bool :=
  decide ((cx + 64 - x0 % 64) % 64 < 8) && decide ((cy + 32 - y0 % 32) % 32 < n) &&
    (s.mem.read (cellAt (s.i.toNat + (cy + 32 - y0 % 32) % 32))).getLsbD (7 - (cx + 64 - x0 % 64) % 64)

/-- The state inside an outcome, changed by `g`. -/
def mapNext (g : State → State) : Host.Outcome State Fault Refusal → Host.Outcome State Fault Refusal
  | .next t => .next (g t)
  | .fault f => .fault f
  | .refused r => .refused r

end Sys2Proof.Safety
end

