-- ==== Sys2Proof/Certificates/Slice0/Obligations.lean ====
section
/-!
DEFINITION. The statements for the provers. `exec` runs after the `PC` advance of the step (30_encoding.md R62), so `PC` in
the state an instruction starts from is a + 2 for the instruction at a.
-/

open Sys2Proof Sys2Proof.Machine Sys2Proof.Safety

/-! ### Encoding and decoding -/

/-- A few words, written out from R68, decode to what they stand for: one of each file of instructions. -/
def Obligations.SampleWordsDecode : Prop :=
  decode 0x00E0 = .ok .cls ∧ decode 0xD125 = .ok (.drw 1 2 5) ∧ decode 0x2300 = .ok (.call 0x300) ∧
  decode 0x3312 = .ok (.seImm 3 0x12) ∧ decode 0x8AB6 = .ok (.shr 0xA 0xB) ∧ decode 0xA2F0 = .ok (.ldI 0x2F0) ∧
  decode 0xF265 = .ok (.ldVxMem 2) ∧ decode 0xF20A = .ok (.ldVxK 2) ∧ decode 0x0123 = .error (.unknown 0x0123)

/-- HEADLINE. Decoding an encoded instruction gives it back, with every operand at every value, from the word and from
the two bytes in memory order (30_encoding.md sections 3, 6 and 8). -/
def Obligations.DecodeOfEncodeIsIdentity : Prop :=
  ∀ (i : Instr) (rest : List Byte), decode (encode i) = .ok i ∧ decodeBytes (encodeBytes i ++ rest) = .ok (i, rest)

/-- Each word that decodes has one meaning: it is the encoding of what it decodes to (30_encoding.md section 4: only
`y` of the shifts is ignored, and the decoder keeps it). -/
def Obligations.EncodeOfDecodeIsIdentity : Prop :=
  ∀ (op : Word) (i : Instr), decode op = .ok i → encode i = op

/-- A word decodes iff it matches a row of the opcode map, and otherwise it is `Unknown` (30_encoding.md section 3). -/
def Obligations.UnknownExactlyWhenNoRowMatches : Prop :=
  ∀ op : Word, (wordWellFormed op = true ↔ ∃ i, decode op = .ok i) ∧
    (wordWellFormed op = false ↔ decode op = .error (.unknown op))

/-- No two rows match one word: the row of the decoded instruction is the only one that does (30_encoding.md section
6). -/
def Obligations.DecodedRowIsTheOnlyMatch : Prop :=
  ∀ (op : Word) (i : Instr), decode op = .ok i → opcodeTable.filter (fun r => r.accepts op) = [i.row]

/-! ### The step -/

/-- The bridge from the instructions to a run: when the two bytes at the `PC` decode to `i`, the step is `exec i` from the
state whose `PC` has advanced by 2 modulo 2^16 (30_encoding.md section 2). -/
def Obligations.StepRunsDecodedInstruction : Prop :=
  ∀ (s : State) (op : Word) (i : Instr), s.fault = none → s.paused = false →
    fetch16 s.params s.mem s.pc.toNat = .ok op → decode op = .ok i →
    step s = exec i { s with pc := s.pc + 2 }

/-- A word that matches no row raises `UnknownOpcode` with the word and its address, after the `PC` advance, and changes
nothing else (60_exceptions.md section 1; `PC` in the faulted state is the spec's decision D7). -/
def Obligations.UnknownWordRaisesUnknownOpcode : Prop :=
  ∀ (s : State) (op : Word), s.fault = none → s.paused = false →
    fetch16 s.params s.mem s.pc.toNat = .ok op → wordWellFormed op = false →
    step s = .next { s with pc := s.pc + 2, fault := some (.unknownOpcode op s.pc) }

/-- R53, R51: the fetched word has the byte at `Cell(a)` in its bits 15:8 and the byte at `Cell(a + 1)` in its bits 7:0;
with a = 0xFFF and wrapping addresses the low byte comes from cell 0x000. -/
def Obligations.FetchIsBigEndian : Prop :=
  (∀ (p : Params) (m : Memory) (a : Nat), p.memOor = .wrap ∨ a + 1 < 4096 →
    ∃ op, fetch16 p m a = .ok op ∧ op.extractLsb' 8 8 = m.read (cellAt a) ∧
      op.extractLsb' 0 8 = m.read (cellAt (a + 1)) ∧
      op.toNat = (m.read (cellAt a)).toNat * 256 + (m.read (cellAt (a + 1))).toNat) ∧
  cellAt (0xFFF + 1) = 0x000

/-- A faulted core stays as it is under `step`, `cycle` and `key_down`, makes no device call, and reports its fault. Of the
two operations left, a `load` outside the contract is refused and one that is accepted keeps the fault, and `reset` clears
it (60_exceptions.md section 1; 70_reset_and_hazards.md section 1; the spec's decisions D7 and D19; log 15). That no
session with a faulted core accepts a `load` is `FaultedSessionsRefuseLoads`. -/
def Obligations.FaultIsSticky : Prop :=
  ∀ (s : State) (f : Fault) (k : Nibble) (keys : Word), s.fault = some f →
    step s = .next s ∧ cycle s = .next s ∧ cycleCalls s = [] ∧ keyDown k s = s ∧ keysDown keys s = s ∧
    reported s = some f ∧
    (∀ image : List Byte, perform (.load image) { core := s, mayLoad := false } = .refused .loadOutsideContract) ∧
    (∀ (image : List Byte) (t : State), load image s = .next t → t.fault = some f) ∧
    (∀ (init : ResetInit) (ml : Bool), ∃ c, perform (.reset init) { core := s, mayLoad := ml } = .next c ∧
      c.core.fault = none)

/-- While paused a step does nothing, and a cycle runs no step and no timer step but still gives the audio level and the
render signal (60_exceptions.md section 3; the spec's decisions D11, D22, D23). -/
def Obligations.PausedCoreOnlySignals : Prop :=
  ∀ s : State, s.fault = none → s.paused = true →
    step s = .next s ∧ cycle s = .next { s with audioOn := decide (0 < s.st.toNat) } ∧
    cycleCalls s = [if 0 < s.st.toNat then .play Config.toneHz else .stop, .render]

/-- The core never gets stuck outside its state: every instruction and every step answers a next state, from
every state whatever, and never changes the parameters (60_exceptions.md sections 1 and 2: the execute step is total, and
a fault is a state). -/
def Obligations.EveryStepAnswersANextState : Prop :=
  (∀ (i : Instr) (s : State), ∃ t, exec i s = .next t ∧ t.params = s.params) ∧
  (∀ s : State, ∃ t, step s = .next t ∧ t.params = s.params) ∧
  (∀ s : State, ∃ t, cycle s = .next t ∧ t.params = s.params)

/-! ### Memory and addresses -/

/-- Canonical memories that read the same are the same list, so states can be compared (the model's own form, log 4). -/
def Obligations.CanonicalMemoriesAreDetermined : Prop :=
  ∀ m k : Memory, m.wf = true → k.wf = true → (∀ c : Fin 4096, m.read c = k.read c) → m = k

/-- `MemoryRange`: under `MEM_OOR = fault` a data access that leaves the 4096 cells records the lowest address out of
range and changes nothing else; the fetch does so with `PC` unchanged; under `MEM_OOR = wrap` it is never raised
(20_memory.md sections 4 and 5; the spec's decisions D2, D7; that the lowest address is the one recorded is the model's
reading, log 13). -/
def Obligations.MemoryRangeIsPrecise : Prop :=
  (∀ (i : Instr) (s : State), s.params.memOor = .fault → 0 < bytesAtI i → 4096 < s.i.toNat + bytesAtI i →
    exec i s = .next { s with fault := some (.memoryRange (max s.i.toNat 4096)) }) ∧
  (∀ s : State, s.fault = none → s.paused = false → s.params.memOor = .fault → 4096 ≤ s.pc.toNat + 1 →
    step s = .next { s with fault := some (.memoryRange (max s.pc.toNat 4096)) }) ∧
  (∀ (s t : State) (a : Nat), s.params.memOor = .wrap → s.fault = none → step s = .next t →
    t.fault ≠ some (.memoryRange a))

/-- A register run stored by `Fx55` and loaded back by `Fx65` from the same `I` restores `V0`..`Vx`, whatever the registers
held in between; the registers above x keep what they held (44_index_memory.md). -/
def Obligations.StoreThenLoadRestoresRegisters : Prop :=
  ∀ (s : State) (x : Nibble) (w : Vector Byte 16), s.mem.wf = true → reachesAtI s (x.toNat + 1) →
    ∃ t u, exec (.ldMemVx x) s = .next t ∧ exec (.ldVxMem x) { t with v := w } = .next u ∧
      (∀ r : Nibble, r.toNat ≤ x.toNat → readV u r = readV s r) ∧
      (∀ r : Nibble, x.toNat < r.toNat → readV u r = w[r.toNat]'r.isLt)

/-- A store is seen by the next fetch: after `Fx55` with x at least 1, the word fetched at the address in `I` is `V0`
above `V1` (20_memory.md section 11; the spec's decision D21). -/
def Obligations.StoredBytesAreFetched : Prop :=
  ∀ (s : State) (x : Nibble), s.mem.wf = true → 1 ≤ x.toNat → reachesAtI s (x.toNat + 1) →
    ∃ t, exec (.ldMemVx x) s = .next t ∧
      fetch16 t.params t.mem s.i.toNat = .ok (wordOfBytes (readV s 0) (readV s 1))

/-! ### Display -/

/-- R81: `CLS` is exactly 0x00E0; it unsets every cell of the framebuffer and touches nothing else. -/
def Obligations.ClsUnsetsEveryPixel : Prop :=
  EncodedBy 0x00E0 0xFFFF (fun _ => .cls) ∧
  (∀ s : State, ∃ t, exec .cls s = .next t ∧ (∀ cx cy : Nat, pixelAt t.fb cx cy = false) ∧
    t = { s with fb := t.fb } ∧ SameBytes s t)

/-- `setPixel` takes its coordinates modulo 64 and 32, answers what the cell held, toggles it and no other cell; a second
call restores the framebuffer and answers the opposite (60_exceptions.md section 5; W6 and W7). -/
def Obligations.SetPixelTogglesAndReports : Prop :=
  ∀ (fb : Framebuffer) (x y : Nat),
    (setPixel fb x y).2 = pixelAt fb (x % 64) (y % 32) ∧
    (∀ cx < 64, ∀ cy < 32, pixelAt (setPixel fb x y).1 cx cy =
      if cx = x % 64 ∧ cy = y % 32 then !pixelAt fb cx cy else pixelAt fb cx cy) ∧
    setPixel fb (x + 64) y = setPixel fb x y ∧ setPixel fb x (y + 32) = setPixel fb x y ∧
    setPixel (setPixel fb x y).1 x y = (fb, !(setPixel fb x y).2)

/-- `DRW` XORs the sprite onto the framebuffer: a cell is toggled iff a set bit of the sprite falls on it, with
coordinates modulo 64 and 32, and `VF` is 1 iff some toggled cell was set, else 0; no other register, not `I` and no byte
of memory changes. For every x, y and n, `VF` as a coordinate and n = 0 among them (40_display.md; the operands are read
first by the spec's decision D5, and bit 7 leftmost is its D16, log 9). -/
def Obligations.DrawXorsTheSprite : Prop :=
  ∀ (s : State) (x y n : Nibble), reachesAtI s n.toNat →
    ∃ t, exec (.drw x y n) s = .next t ∧
      (∀ cx < 64, ∀ cy < 32, pixelAt t.fb cx cy =
        (pixelAt s.fb cx cy ^^ spriteCovers s (readV s x).toNat (readV s y).toNat n.toNat cx cy)) ∧
      ((∃ cx < 64, ∃ cy < 32, pixelAt s.fb cx cy = true ∧
          spriteCovers s (readV s x).toNat (readV s y).toNat n.toNat cx cy = true) → readV t regF = 1) ∧
      ((∀ cx < 64, ∀ cy < 32, pixelAt s.fb cx cy = true →
          spriteCovers s (readV s x).toNat (readV s y).toNat n.toNat cx cy = false) → readV t regF = 0) ∧
      (∀ r, r ≠ regF → readV t r = readV s r) ∧ t = { s with fb := t.fb, v := t.v } ∧ SameBytes s t

/-- Drawing the same sprite twice at registers other than `VF` restores the framebuffer (40_display.md; DSP2 and
DSP3). -/
def Obligations.DrawTwiceRestoresTheScreen : Prop :=
  ∀ (s : State) (x y n : Nibble), x ≠ regF → y ≠ regF → reachesAtI s n.toNat →
    ∃ t u, exec (.drw x y n) s = .next t ∧ exec (.drw x y n) t = .next u ∧ u.fb = s.fb

/-! ### Control transfer -/

/-- R92: `JP nnn` sets `PC` to nnn and touches nothing else. -/
def Obligations.JumpSetsPc : Prop :=
  EncodedBy 0x1000 0xF000 (fun op => .jp (opNnn op)) ∧
  (∀ (s : State) (nnn : Addr12), ∃ t, exec (.jp nnn) s = .next t ∧ t.pc.toNat = nnn.toNat ∧ OnlyPc s t)

/-- `CALL` pushes the advanced `PC` and jumps when the stack is not full; when it is, it records `StackOverflow` with the
return address and changes nothing else (41_control.md; `PC` in the faulted state is the spec's decision D7). -/
def Obligations.CallPushesTheReturnAddress : Prop :=
  ∀ (s : State) (nnn : Addr12),
    (s.stack.length < s.params.stackDepth → ∃ t, exec (.call nnn) s = .next t ∧ t.pc.toNat = nnn.toNat ∧
      t.stack = s.stack ++ [s.pc] ∧ t = { s with pc := t.pc, stack := t.stack } ∧ SameBytes s t) ∧
    (s.stack.length = s.params.stackDepth →
      exec (.call nnn) s = .next { s with fault := some (.stackOverflow s.pc) })

/-- `RET` pops the top of the stack into `PC`; on an empty stack it records `StackUnderflow` and changes nothing else
(41_control.md; `PC` in the faulted state is the spec's decision D7). -/
def Obligations.ReturnPopsIntoPc : Prop :=
  (∀ (s : State) (rest : List Word) (w : Word), s.stack = rest ++ [w] → ∃ t, exec .ret s = .next t ∧ t.pc = w ∧
    t.stack = rest ∧ t = { s with pc := t.pc, stack := t.stack } ∧ SameBytes s t) ∧
  (∀ s : State, s.stack = [] → exec .ret s = .next { s with fault := some .stackUnderflow })

/-- `CALL` followed at its target by a step's advance and `RET` restores the whole state from which the `CALL` ran, so
execution goes on after the `CALL` (41_control.md; W3). -/
def Obligations.ReturnUndoesCall : Prop :=
  ∀ (s : State) (nnn : Addr12), s.stack.length < s.params.stackDepth →
    ∃ t, exec (.call nnn) s = .next t ∧ exec .ret { t with pc := t.pc + 2 } = .next s

/-- `JP V0, nnn` sets `PC` to nnn + V0, kept whole, and touches nothing else (41_control.md; the width is the spec's
decision D3). -/
def Obligations.JumpWithOffsetAddsV0 : Prop :=
  ∀ (s : State) (nnn : Addr12), ∃ t, exec (.jpV0 nnn) s = .next t ∧
    t.pc.toNat = nnn.toNat + (readV s 0).toNat ∧ OnlyPc s t

/-! ### Skips -/

/-- The four comparison skips, their encodings (a `5xyn` or `9xyn` with n not 0 is unknown), and that each adds 2 modulo
2^16 to the advanced `PC` exactly when its condition holds, writes no register and touches no memory (42_skip.md; that a
skip does this and nothing else is the spec's decision D3, log 21). -/
def Obligations.ComparisonSkips : Prop :=
  (EncodedBy 0x3000 0xF000 (fun op => .seImm (opX op) (opKk op)) ∧
    EncodedBy 0x4000 0xF000 (fun op => .sneImm (opX op) (opKk op)) ∧
    EncodedBy 0x5000 0xF00F (fun op => .seReg (opX op) (opY op)) ∧
    EncodedBy 0x9000 0xF00F (fun op => .sneReg (opX op) (opY op))) ∧
  (∀ op : Word, (op.toNat / 4096 = 5 ∨ op.toNat / 4096 = 9) → op.toNat % 16 ≠ 0 → decode op = .error (.unknown op)) ∧
  (∀ (s : State) (x y : Nibble) (kk : Byte),
    (∃ t, exec (.seImm x kk) s = .next t ∧ OnlyPc s t ∧
      t.pc.toNat = (if (readV s x).toNat = kk.toNat then s.pc.toNat + 2 else s.pc.toNat) % 65536) ∧
    (∃ t, exec (.sneImm x kk) s = .next t ∧ OnlyPc s t ∧
      t.pc.toNat = (if (readV s x).toNat = kk.toNat then s.pc.toNat else s.pc.toNat + 2) % 65536) ∧
    (∃ t, exec (.seReg x y) s = .next t ∧ OnlyPc s t ∧
      t.pc.toNat = (if (readV s x).toNat = (readV s y).toNat then s.pc.toNat + 2 else s.pc.toNat) % 65536) ∧
    (∃ t, exec (.sneReg x y) s = .next t ∧ OnlyPc s t ∧
      t.pc.toNat = (if (readV s x).toNat = (readV s y).toNat then s.pc.toNat else s.pc.toNat + 2) % 65536))

/-- `SKP` and `SKNP` on a key code up to 15: the answer of the input device, a free value, decides; one answer is taken and
nothing else changes (42_skip.md; the spec's decision D28; log 8). The statement holds for every answer. -/
def Obligations.KeySkipsFollowTheInputDevice : Prop :=
  ∀ (s : State) (x : Nibble) (k : Nibble), (readV s x).toNat = k.toNat →
    (∃ t, exec (.skp x) s = .next t ∧
      t.pc = (if Config.keyPressed s.keyDraws k then s.pc + 2 else s.pc) ∧
      t = { s with pc := t.pc, keyDraws := s.keyDraws + 1 } ∧ SameBytes s t) ∧
    (∃ t, exec (.sknp x) s = .next t ∧
      t.pc = (if Config.keyPressed s.keyDraws k then s.pc else s.pc + 2) ∧
      t = { s with pc := t.pc, keyDraws := s.keyDraws + 1 } ∧ SameBytes s t)

/-- `SKP` and `SKNP` on a key code above 15: with `KEY_OOR = not_pressed` the key is never pressed; with `KEY_OOR = fault`
`KeyRange` is recorded and nothing else changes (42_skip.md; the spec's decision D9). -/
def Obligations.KeyCodesAboveFifteen : Prop :=
  ∀ (s : State) (x : Nibble), 15 < (readV s x).toNat →
    (s.params.keyOor = .notPressed → exec (.skp x) s = .next s ∧ exec (.sknp x) s = .next { s with pc := s.pc + 2 }) ∧
    (s.params.keyOor = .fault → exec (.skp x) s = .next { s with fault := some (.keyRange (readV s x)) } ∧
      exec (.sknp x) s = .next { s with fault := some (.keyRange (readV s x)) })

/-! ### Register loads and arithmetic -/

/-- R111 and R113: the two register loads, their encodings, their results, and that they touch nothing but `Vx`. -/
def Obligations.RegisterLoads : Prop :=
  (EncodedBy 0x6000 0xF000 (fun op => .ldImm (opX op) (opKk op)) ∧
    EncodedBy 0x8000 0xF00F (fun op => .ldReg (opX op) (opY op))) ∧
  (∀ (s : State) (x y : Nibble) (kk : Byte),
    (∃ t, exec (.ldImm x kk) s = .next t ∧ readV t x = kk ∧ OnlyRegs (· = x) s t) ∧
    (∃ t, exec (.ldReg x y) s = .next t ∧ readV t x = readV s y ∧ OnlyRegs (· = x) s t))

/-- R112: `ADD Vx, kk` adds modulo 256 and writes no flag: `VF` is unchanged when x is not F, and is the sum when x is
F. -/
def Obligations.AddImmediateWrapsWithoutFlag : Prop :=
  EncodedBy 0x7000 0xF000 (fun op => .addImm (opX op) (opKk op)) ∧
  (∀ (s : State) (x : Nibble) (kk : Byte), ∃ t, exec (.addImm x kk) s = .next t ∧
    (readV t x).toNat = ((readV s x).toNat + kk.toNat) % 256 ∧ OnlyRegs (· = x) s t)

/-- R114 to R116: OR, AND and XOR bit by bit, their encodings, and that they touch nothing but `Vx`; `VF` is not reset. -/
def Obligations.LogicalOperations : Prop :=
  (EncodedBy 0x8001 0xF00F (fun op => .orReg (opX op) (opY op)) ∧
    EncodedBy 0x8002 0xF00F (fun op => .andReg (opX op) (opY op)) ∧
    EncodedBy 0x8003 0xF00F (fun op => .xorReg (opX op) (opY op))) ∧
  (∀ (s : State) (x y : Nibble),
    (∃ t, exec (.orReg x y) s = .next t ∧ OnlyRegs (· = x) s t ∧
      ∀ b < 8, (readV t x).getLsbD b = ((readV s x).getLsbD b || (readV s y).getLsbD b)) ∧
    (∃ t, exec (.andReg x y) s = .next t ∧ OnlyRegs (· = x) s t ∧
      ∀ b < 8, (readV t x).getLsbD b = ((readV s x).getLsbD b && (readV s y).getLsbD b)) ∧
    (∃ t, exec (.xorReg x y) s = .next t ∧ OnlyRegs (· = x) s t ∧
      ∀ b < 8, (readV t x).getLsbD b = ((readV s x).getLsbD b ^^ (readV s y).getLsbD b)))

/-- `8xy4`: the sum modulo 256 in `Vx`, and in `VF` 1 iff the exact sum exceeds 255, when x is not F; with x = F the sum
is the final value of `VF`. Operands are the values before the instruction (43_alu.md; write order and operand reads are
the spec's decision D5, log 11). -/
def Obligations.AddSetsCarry : Prop :=
  ∀ (s : State) (x y : Nibble), ∃ t, exec (.addReg x y) s = .next t ∧ OnlyRegs (fun r => r = x ∨ r = regF) s t ∧
    (readV t x).toNat = ((readV s x).toNat + (readV s y).toNat) % 256 ∧
    (x ≠ regF → readV t regF = if 255 < (readV s x).toNat + (readV s y).toNat then 1 else 0)

/-- `8xy5` and `8xy7`: the difference modulo 256 in `Vx`, and in `VF` 1 iff the minuend is strictly the greater, when x is
not F; with x = F the difference is the final value of `VF` (43_alu.md; decision D5, log 11). -/
def Obligations.SubtractionsSetNoBorrow : Prop :=
  ∀ (s : State) (x y : Nibble),
    (∃ t, exec (.subReg x y) s = .next t ∧ OnlyRegs (fun r => r = x ∨ r = regF) s t ∧
      (readV t x).toNat = ((readV s x).toNat + 256 - (readV s y).toNat) % 256 ∧
      (x ≠ regF → readV t regF = if (readV s y).toNat < (readV s x).toNat then 1 else 0)) ∧
    (∃ t, exec (.subnReg x y) s = .next t ∧ OnlyRegs (fun r => r = x ∨ r = regF) s t ∧
      (readV t x).toNat = ((readV s y).toNat + 256 - (readV s x).toNat) % 256 ∧
      (x ≠ regF → readV t regF = if (readV s x).toNat < (readV s y).toNat then 1 else 0))

/-- `8xy6` and `8xyE`: `Vx` is shifted by one, the bit shifted out is in `VF` when x is not F, with x = F the result is the
final value of `VF`; the field y has no effect (43_alu.md; decision D5, log 11). -/
def Obligations.ShiftsMoveABitIntoVF : Prop :=
  ∀ (s : State) (x y z : Nibble),
    (∃ t, exec (.shr x y) s = .next t ∧ exec (.shr x z) s = .next t ∧
      OnlyRegs (fun r => r = x ∨ r = regF) s t ∧ (readV t x).toNat = (readV s x).toNat / 2 ∧
      (x ≠ regF → (readV t regF).toNat = (readV s x).toNat % 2)) ∧
    (∃ t, exec (.shl x y) s = .next t ∧ exec (.shl x z) s = .next t ∧
      OnlyRegs (fun r => r = x ∨ r = regF) s t ∧ (readV t x).toNat = (readV s x).toNat * 2 % 256 ∧
      (x ≠ regF → (readV t regF).toNat = (readV s x).toNat / 128))

/-- `RND`: `Vx` is the byte drawn, a free value, under the mask; no bit outside kk is set; one byte is drawn (43_alu.md;
the spec's decision D14; log 7). The statement holds for every byte drawn. -/
def Obligations.RandomByteUnderMask : Prop :=
  ∀ (s : State) (x : Nibble) (kk : Byte), ∃ t, exec (.rnd x kk) s = .next t ∧
    (∀ b < 8, (readV t x).getLsbD b = ((Config.randomByte s.randomDraws).getLsbD b && kk.getLsbD b)) ∧
    (∀ r, r ≠ x → readV t r = readV s r) ∧ t = { s with v := t.v, randomDraws := s.randomDraws + 1 } ∧ SameBytes s t

/-! ### Index register and memory transfer -/

/-- R131 and R133: `I` is nnn, or five times `Vx` with no masking; the encodings; nothing but `I` changes. -/
def Obligations.IndexLoads : Prop :=
  (EncodedBy 0xA000 0xF000 (fun op => .ldI (opNnn op)) ∧ EncodedBy 0xF029 0xF0FF (fun op => .ldF (opX op))) ∧
  (∀ (s : State) (nnn : Addr12) (x : Nibble),
    (∃ t, exec (.ldI nnn) s = .next t ∧ t.i.toNat = nnn.toNat ∧ t = { s with i := t.i } ∧ SameBytes s t) ∧
    (∃ t, exec (.ldF x) s = .next t ∧ t.i.toNat = (readV s x).toNat * 5 ∧ t = { s with i := t.i } ∧ SameBytes s t))

/-- `ADD I, Vx` adds modulo 2^16 and writes no flag (44_index_memory.md; the width is the spec's decision D4). -/
def Obligations.AddToIndexWraps : Prop :=
  ∀ (s : State) (x : Nibble), ∃ t, exec (.addI x) s = .next t ∧
    t.i.toNat = (s.i.toNat + (readV s x).toNat) % 65536 ∧ t = { s with i := t.i } ∧ SameBytes s t

/-- `Fx33` stores the hundreds, tens and ones digits at `I`, `I + 1` and `I + 2`; every other byte, `I` and every register
is unchanged (44_index_memory.md; addresses of 4096 or more by the spec's decision D2). The cells are those the
instruction forms. -/
def Obligations.DecimalDigitsAreStored : Prop :=
  ∀ (s : State) (x : Nibble), s.mem.wf = true → reachesAtI s 3 →
    cellsAtI s 3 = .ok (cellsFromI s 3) ∧
    ∃ t, exec (.ldB x) s = .next t ∧
      (t.mem.read (cellAt s.i.toNat)).toNat = (readV s x).toNat / 100 ∧
      (t.mem.read (cellAt (s.i.toNat + 1))).toNat = (readV s x).toNat / 10 % 10 ∧
      (t.mem.read (cellAt (s.i.toNat + 2))).toNat = (readV s x).toNat % 10 ∧
      (∀ a : Fin 4096, a ∉ cellsFromI s 3 → t.mem.read a = s.mem.read a) ∧ t = { s with mem := t.mem }

/-- `Fx55` stores `V0`..`Vx` at `I` and up; every other byte, `I` and every register is unchanged (44_index_memory.md; the
spec's decisions D2, D6). The cells are those the instruction forms. -/
def Obligations.RegistersAreStored : Prop :=
  ∀ (s : State) (x : Nibble), s.mem.wf = true → reachesAtI s (x.toNat + 1) →
    cellsAtI s (x.toNat + 1) = .ok (cellsFromI s (x.toNat + 1)) ∧
    ∃ t, exec (.ldMemVx x) s = .next t ∧
      (∀ r : Nibble, r.toNat ≤ x.toNat → t.mem.read (cellAt (s.i.toNat + r.toNat)) = readV s r) ∧
      (∀ a : Fin 4096, a ∉ cellsFromI s (x.toNat + 1) → t.mem.read a = s.mem.read a) ∧ t = { s with mem := t.mem }

/-- `Fx65` loads `V0`..`Vx` from `I` and up; the registers above x, `I` and memory are unchanged (44_index_memory.md; the
spec's decisions D2, D6). -/
def Obligations.RegistersAreLoaded : Prop :=
  ∀ (s : State) (x : Nibble), reachesAtI s (x.toNat + 1) →
    ∃ t, exec (.ldVxMem x) s = .next t ∧
      (∀ r : Nibble, r.toNat ≤ x.toNat → readV t r = s.mem.read (cellAt (s.i.toNat + r.toNat))) ∧
      OnlyRegs (fun r => r.toNat ≤ x.toNat) s t

/-! ### Timers and key wait -/

/-- R141, R143 and R144: the moves between a register and the timers, their encodings, and that each touches nothing but
its destination. -/
def Obligations.TimerMoves : Prop :=
  (EncodedBy 0xF007 0xF0FF (fun op => .ldVxDt (opX op)) ∧ EncodedBy 0xF015 0xF0FF (fun op => .ldDtVx (opX op)) ∧
    EncodedBy 0xF018 0xF0FF (fun op => .ldStVx (opX op))) ∧
  (∀ (s : State) (x : Nibble),
    (∃ t, exec (.ldVxDt x) s = .next t ∧ readV t x = s.dt ∧ OnlyRegs (· = x) s t) ∧
    (∃ t, exec (.ldDtVx x) s = .next t ∧ t.dt = readV s x ∧ t = { s with dt := t.dt } ∧ SameBytes s t) ∧
    (∃ t, exec (.ldStVx x) s = .next t ∧ t.st = readV s x ∧ t = { s with st := t.st } ∧ SameBytes s t))

/-- `Fx0A` pauses the core and records x, `Vx` unwritten; a key then pressed goes into `Vx` and the core runs on from the
same `PC`, everything else as it was before the wait (45_timer_key.md, 60_exceptions.md section 4; the spec's decision
D10; W4). -/
def Obligations.KeyWaitEndsWithTheKey : Prop :=
  ∀ (s : State) (x k : Nibble),
    ∃ t, exec (.ldVxK x) s = .next t ∧ t = { s with paused := true, pending := some x } ∧ SameBytes s t ∧
      (s.fault = none → ∃ u, keyDown k t = u ∧ (readV u x).toNat = k.toNat ∧
        (∀ r, r ≠ x → readV u r = readV s r) ∧ u = { s with v := u.v, paused := false, pending := none })

/-- A key press with no register pending has no effect and is not kept; of several keys pressed at once the lowest resumes
the core and the others have no effect (60_exceptions.md section 4; the spec's decision D10, log 19). -/
def Obligations.LowestKeyResumes : Prop :=
  (∀ (s : State) (k : Nibble) (keys : Word), s.pending = none → keyDown k s = s ∧ keysDown keys s = s) ∧
  (∀ (s : State) (keys : Word) (k : Nibble), s.fault = none → keys.getLsbD k.toNat = true →
    (∀ j < k.toNat, keys.getLsbD j = false) → keysDown keys s = keyDown k s)

/-! ### The cycle -/

/-- A cycle whose batch does not fault ends with the timer step (only while not paused), the audio level and the two
device calls; nothing else changes after the batch (60_exceptions.md section 3; the spec's decisions D11, D22). -/
def Obligations.CycleEndsWithTimersAndSignals : Prop :=
  ∀ s u : State, s.fault = none → runBatch s.params.speed s = .next u → u.fault = none →
    ∃ t, cycle s = .next t ∧
      t.dt.toNat = (if u.paused then u.dt.toNat else u.dt.toNat - 1) ∧
      t.st.toNat = (if u.paused then u.st.toNat else u.st.toNat - 1) ∧
      (t.audioOn = true ↔ 0 < t.st.toNat) ∧
      cycleCalls s = [if 0 < t.st.toNat then .play Config.toneHz else .stop, .render] ∧
      t = { u with dt := t.dt, st := t.st, audioOn := t.audioOn }

/-- A step of the batch that faults ends the cycle at once: no timer step, no audio level, no device call
(60_exceptions.md section 3; the spec's decisions D7, D22). -/
def Obligations.FaultEndsTheCycle : Prop :=
  ∀ (s u : State) (f : Fault), s.fault = none → runBatch s.params.speed s = .next u → u.fault = some f →
    cycle s = .next u ∧ cycleCalls s = []

/-- A batch is steps one after another: it stops when the core is paused or faulted, and otherwise takes one more step
(60_exceptions.md section 3). -/
def Obligations.BatchStopsWhenHalted : Prop :=
  ∀ (n m : Nat) (s t u : State), runBatch n s = .next t →
    (n = 0 → t = s) ∧ (s.fault ≠ none ∨ s.paused = true → t = s) ∧
    (t.fault ≠ none ∨ t.paused = true → runBatch (n + m) s = .next t) ∧
    (t.fault = none → t.paused = false → step t = .next u → runBatch (n + 1) s = .next u)

/-- A program that jumps to itself is idle: the step leaves the whole state as it is, and a cycle only counts the timers
down and gives the audio level (60_exceptions.md section 8; the spec's decision D25). The cycle clause rests on section 3:
one timer step after the batch, then the audio level (the spec's decisions D11, D22; log 20). -/
def Obligations.SelfJumpIsIdle : Prop :=
  ∀ (s : State) (nnn : Addr12), s.fault = none → s.paused = false → s.pc.toNat = nnn.toNat →
    fetch16 s.params s.mem s.pc.toNat = .ok (encode (.jp nnn)) →
    step s = .next s ∧
    ∃ t, cycle s = .next t ∧ t.dt.toNat = s.dt.toNat - 1 ∧ t.st.toNat = s.st.toNat - 1 ∧
      t = { s with dt := t.dt, st := t.st, audioOn := decide (0 < t.st.toNat) }

/-- Timer monotonicity (W8): K timer steps of an unpaused core take a timer from N to N - K, or to 0. -/
def Obligations.TimersCountDownToZero : Prop :=
  ∀ (k : Nat) (s : State), s.paused = false →
    (timerStep^[k] s).dt.toNat = s.dt.toNat - k ∧ (timerStep^[k] s).st.toNat = s.st.toNat - k

/-! ### Whole-machine rules -/

/-- Frame of every instruction (10_state.md section 11): whatever state it starts from, an instruction changes
only what its row of the table lets it write; in particular `VF` is a flag of exactly the six flag instructions, only
`Fx33` and `Fx55` change memory and only in the bytes they store to, and no instruction changes `audio_on`. -/
def Obligations.InstructionsKeepTheirFootprint : Prop :=
  ∀ (i : Instr) (s t : State), exec i s = .next t → WithinFootprint i s t

/-- No instruction reads the sound timer or the audio level (10_state.md sections 6 and 9): other values there change
nothing but themselves in what any instruction does. -/
def Obligations.SoundTimerIsUnread : Prop :=
  ∀ (i : Instr) (s : State) (b : Byte) (a : Bool),
    exec i { s with st := b, audioOn := a } =
      mapNext (fun t => { t with audioOn := a, st := if (∃ x, i = .ldStVx x) then t.st else b }) (exec i s)

/-- The delay timer affects a program only through `Fx07` (10_state.md section 6): another value there changes nothing
but itself in what any other instruction does. -/
def Obligations.DelayTimerIsReadOnlyByFx07 : Prop :=
  ∀ (i : Instr) (s : State) (b : Byte), (∀ x, i ≠ .ldVxDt x) →
    exec i { s with dt := b } =
      mapNext (fun t => { t with dt := if (∃ x, i = .ldDtVx x) then t.dt else b }) (exec i s)

/-! ### Invariant, reset, loader -/

/-- The invariant holds after every reset, whatever the parameters and the unspecified values (10_state.md section 14).
Its clause that memory is canonical is about the model's own form of memory (log 4), not a rule of the spec; that a reset
core is neither paused nor faulted is the spec's decision D13 (log 6). -/
def Obligations.ResetMeetsTheInvariant : Prop :=
  Inv State.reset ∧ ∀ (p : Params) (init : ResetInit), Inv (resetWith p init)

/-- HEADLINE. Every step keeps the invariant, from every state that has it: memory canonical, paused iff a register is
pending, the stack within its depth, a fault that fits the state it left (10_state.md sections 5 and 7; 60_exceptions.md
section 1). That memory is canonical is the model's own form (log 4, DESIGN CHOICE), and where `PC` stands in a faulted
state is the spec's decision D7 (log 12). -/
def Obligations.EveryStepKeepsTheInvariant : Prop :=
  ∀ s t : State, Inv s → step s = .next t → Inv t

/-- HEADLINE. Every operation of the host keeps the invariant: reset, load, step, cycle and key_down (00_scope.md section
4; 10_state.md sections 5 and 7; 60_exceptions.md section 1). That memory is canonical is the model's own form (log 4,
DESIGN CHOICE), and where `PC` stands in a faulted state is the spec's decision D7 (log 12). -/
def Obligations.EveryHostOperationKeepsTheInvariant : Prop :=
  ∀ (op : HostOp) (c d : Session), Inv c.core → perform op c = .next d → Inv d.core

/-- What reset leaves: the font below 0x050 and 0x00 above, `PC` 0x200, the stack empty, the timers 0, running, no audio;
`V0`-`VF`, `I` and `FB` whatever they happen to be (10_state.md section 14; that the core starts running with no audio is
the spec's decision D13; log 6). -/
def Obligations.ResetLeavesTheTabulatedState : Prop :=
  ∀ (p : Params) (init : ResetInit),
    (∀ a : Fin 4096, (resetWith p init).mem.read a = if h : a.val < 80 then init.font[a.val] else 0) ∧
    (resetWith p init).pc = 0x200 ∧ (resetWith p init).stack = [] ∧ (resetWith p init).dt = 0 ∧
    (resetWith p init).st = 0 ∧ statusOf (resetWith p init) = .running ∧ (resetWith p init).pending = none ∧
    (resetWith p init).audioOn = false ∧ (resetWith p init).v = init.v ∧ (resetWith p init).i = init.i ∧
    (resetWith p init).fb = init.fb ∧ resetWith Config.defaults ResetInit.default = State.reset

/-- R191: the first step after reset and load fetches the word at 0x200 and 0x201, the image's first two bytes, or what
reset left there, and executes what it decodes to. -/
def Obligations.FirstStepFetchesTheEntryPoint : Prop :=
  ∀ (p : Params) (init : ResetInit) (image : List Byte) (t : State), load image (resetWith p init) = .next t →
    t.pc = 0x200 ∧ fetch16 t.params t.mem t.pc.toNat = .ok (wordOfBytes (t.mem.read 0x200) (t.mem.read 0x201)) ∧
    (∀ i, decode (wordOfBytes (t.mem.read 0x200) (t.mem.read 0x201)) = .ok i →
      step t = exec i { t with pc := 0x202 }) ∧
    (∀ hi lo rest, image = hi :: lo :: rest → t.mem.read 0x200 = hi ∧ t.mem.read 0x201 = lo)

/-- The loader: an image of at most 3584 bytes is copied to 0x200 and up and nothing else changes; a longer one fails with
`OutOfBounds` (20_memory.md section 9; the order of the check is the spec's decision D19). -/
def Obligations.LoaderCopiesTheImage : Prop :=
  ∀ (image : List Byte) (s : State), s.mem.wf = true →
    (image.length ≤ 3584 → ∃ t, load image s = .next t ∧ t = { s with mem := t.mem } ∧
      (∀ (r : Nat) (h : r < image.length), t.mem.read (cellAt (0x200 + r)) = image[r]'h) ∧
      (∀ a : Fin 4096, a.val < 0x200 ∨ 0x200 + image.length ≤ a.val → t.mem.read a = s.mem.read a)) ∧
    (3584 < image.length → load image s = .refused (.outOfBounds image.length))

/-- The boot order: a load is accepted only between a reset and the first step, cycle or load (70_reset_and_hazards.md
section 1; the spec's decision D19; log 15). -/
def Obligations.LoadOnlyBeforeTheFirstCycle : Prop :=
  (∀ (image : List Byte) (c : Session), c.mayLoad = false → perform (.load image) c = .refused .loadOutsideContract) ∧
  (∀ (image : List Byte) (c d : Session), perform (.load image) c = .next d → d.mayLoad = false) ∧
  (∀ c d : Session, perform .step c = .next d ∨ perform .cycle c = .next d → d.mayLoad = false) ∧
  (∀ (k : Nibble) (c d : Session), perform (.keyDown k) c = .next d → d.mayLoad = c.mayLoad) ∧
  (∀ (init : ResetInit) (image : List Byte) (c : Session), image.length ≤ 3584 →
    ∃ d e, perform (.reset init) c = .next d ∧ perform (.load image) d = .next e)

/-- No session with a faulted core accepts a `load`: every operation of the host keeps it so, from every session, and after
a `reset` it holds whatever was before. A fault comes from a `step` or a `cycle`, which end the time for a `load`
(60_exceptions.md section 1; 70_reset_and_hazards.md section 1; the spec's decisions D7 and D19; log 15). -/
def Obligations.FaultedSessionsRefuseLoads : Prop :=
  (∀ (op : HostOp) (c d : Session), (c.core.fault ≠ none → c.mayLoad = false) → perform op c = .next d →
    d.core.fault ≠ none → d.mayLoad = false) ∧
  (∀ (init : ResetInit) (c : Session), ∃ d, perform (.reset init) c = .next d ∧ d.core.fault = none ∧
    d.mayLoad = true)
end

