-- ==== Sys2Proof/Laws/Encoding.lean ====
section
/-!
SUPPORT. The fields of an encoded word (30_encoding.md R61) in arithmetic: a word is the number its fields make, and each
field reads back what the word was built from.
-/

namespace Sys2Proof

theorem toNat_append_add {n m : Nat} (a : BitVec n) (b : BitVec m) : (a ++ b).toNat = a.toNat * 2 ^ m + b.toNat := by
  rw [BitVec.toNat_append, ← Nat.shiftLeft_add_eq_or_of_lt b.isLt, Nat.shiftLeft_eq]

/-! ### Fields as numbers -/

theorem opTop_toNat (op : Word) : (opTop op).toNat = op.toNat / 4096 := by
  have := op.isLt
  simp only [opTop, BitVec.extractLsb'_toNat, Nat.shiftRight_eq_div_pow]
  omega

theorem opX_toNat (op : Word) : (opX op).toNat = op.toNat / 256 % 16 := by
  simp only [opX, BitVec.extractLsb'_toNat, Nat.shiftRight_eq_div_pow]

theorem opY_toNat (op : Word) : (opY op).toNat = op.toNat / 16 % 16 := by
  simp only [opY, BitVec.extractLsb'_toNat, Nat.shiftRight_eq_div_pow]

theorem opN_toNat (op : Word) : (opN op).toNat = op.toNat % 16 := by
  simp [opN]

theorem opKk_toNat (op : Word) : (opKk op).toNat = op.toNat % 256 := by
  simp [opKk]

theorem opNnn_toNat (op : Word) : (opNnn op).toNat = op.toNat % 4096 := by
  simp [opNnn]

/-! ### Reading a field back -/

section Fields

variable (t x y n : Nibble) (kk : Byte) (nnn : Addr12)

/-- Words of the form t x y n. -/
theorem fields_txyn : opTop (t ++ x ++ y ++ n) = t ∧ opX (t ++ x ++ y ++ n) = x ∧ opY (t ++ x ++ y ++ n) = y ∧
    opN (t ++ x ++ y ++ n) = n := by
  have h : (t ++ x ++ y ++ n : Word).toNat = ((t.toNat * 16 + x.toNat) * 16 + y.toNat) * 16 + n.toNat := by
    simp only [toNat_append_add]; rfl
  have ht := t.isLt
  have hx := x.isLt
  have hy := y.isLt
  have hn := n.isLt
  refine ⟨?_, ?_, ?_, ?_⟩ <;> apply BitVec.eq_of_toNat_eq
  · rw [opTop_toNat, h]; omega
  · rw [opX_toNat, h]; omega
  · rw [opY_toNat, h]; omega
  · rw [opN_toNat, h]; omega

/-- Words of the form t x kk. -/
theorem fields_txkk : opTop (t ++ x ++ kk) = t ∧ opX (t ++ x ++ kk) = x ∧ opKk (t ++ x ++ kk) = kk := by
  have h : (t ++ x ++ kk : Word).toNat = (t.toNat * 16 + x.toNat) * 256 + kk.toNat := by
    simp only [toNat_append_add]; rfl
  have ht := t.isLt
  have hx := x.isLt
  have hk := kk.isLt
  refine ⟨?_, ?_, ?_⟩ <;> apply BitVec.eq_of_toNat_eq
  · rw [opTop_toNat, h]; omega
  · rw [opX_toNat, h]; omega
  · rw [opKk_toNat, h]; omega

/-- Words of the form t nnn. -/
theorem fields_tnnn : opTop (t ++ nnn) = t ∧ opNnn (t ++ nnn) = nnn := by
  have h : (t ++ nnn : Word).toNat = t.toNat * 4096 + nnn.toNat := by
    simp only [toNat_append_add]; rfl
  have ht := t.isLt
  have hn := nnn.isLt
  refine ⟨?_, ?_⟩ <;> apply BitVec.eq_of_toNat_eq
  · rw [opTop_toNat, h]; omega
  · rw [opNnn_toNat, h]; omega

end Fields

/-! ### A word from its fields -/

/-- A word is its four nibbles. -/
theorem word_of_txyn (op : Word) : opTop op ++ opX op ++ opY op ++ opN op = op := by
  apply BitVec.eq_of_toNat_eq
  have h : (opTop op ++ opX op ++ opY op ++ opN op : Word).toNat =
      (((opTop op).toNat * 16 + (opX op).toNat) * 16 + (opY op).toNat) * 16 + (opN op).toNat := by
    simp only [toNat_append_add]; rfl
  have := op.isLt
  have := opTop_toNat op
  have := opX_toNat op
  have := opY_toNat op
  have := opN_toNat op
  omega

/-- A word is its top nibble, x and kk. -/
theorem word_of_txkk (op : Word) : opTop op ++ opX op ++ opKk op = op := by
  apply BitVec.eq_of_toNat_eq
  have h : (opTop op ++ opX op ++ opKk op : Word).toNat =
      ((opTop op).toNat * 16 + (opX op).toNat) * 256 + (opKk op).toNat := by
    simp only [toNat_append_add]; rfl
  have := op.isLt
  have := opTop_toNat op
  have := opX_toNat op
  have := opKk_toNat op
  omega

/-- A word is its top nibble and nnn. -/
theorem word_of_tnnn (op : Word) : opTop op ++ opNnn op = op := by
  apply BitVec.eq_of_toNat_eq
  have h : (opTop op ++ opNnn op : Word).toNat = (opTop op).toNat * 4096 + (opNnn op).toNat := by
    simp only [toNat_append_add]; rfl
  have := op.isLt
  have := opTop_toNat op
  have := opNnn_toNat op
  omega

/-! ### Masks: which fields a row of R68 fixes -/

theorem and_F000 (op : Word) : op &&& 0xF000#16 = opTop op ++ 0x000#12 := by
  apply BitVec.eq_of_getLsbD_eq
  intro i hi
  interval_cases i <;>
    simp only [opTop, BitVec.getLsbD_append, BitVec.getLsbD_and, BitVec.getLsbD_extractLsb'] <;> simp

theorem and_F00F (op : Word) : op &&& 0xF00F#16 = opTop op ++ 0x0#4 ++ 0x0#4 ++ opN op := by
  apply BitVec.eq_of_getLsbD_eq
  intro i hi
  interval_cases i <;>
    simp only [opTop, opN, BitVec.getLsbD_append, BitVec.getLsbD_and, BitVec.getLsbD_extractLsb'] <;> simp

theorem and_F0FF (op : Word) : op &&& 0xF0FF#16 = opTop op ++ 0x0#4 ++ opKk op := by
  apply BitVec.eq_of_getLsbD_eq
  intro i hi
  interval_cases i <;>
    simp only [opTop, opKk, BitVec.getLsbD_append, BitVec.getLsbD_and, BitVec.getLsbD_extractLsb'] <;> simp

/-- A row with mask 0xF000 fixes the top nibble. -/
theorem accepts_F000 {p : Word} (t : Nibble) (hp : p = t ++ 0x000#12) (op : Word) :
    OpRow.accepts ⟨p, 0xF000⟩ op = true ↔ opTop op = t := by
  subst hp
  simp only [OpRow.accepts, beq_iff_eq]
  rw [show (0xF000 : Word) = 0xF000#16 from rfl, and_F000]
  constructor
  · intro h; rw [← (fields_tnnn (opTop op) 0#12).1, h]; exact (fields_tnnn t 0#12).1
  · intro h; rw [h]

/-- A row with mask 0xF00F fixes the top and the low nibble. -/
theorem accepts_F00F {p : Word} (t n : Nibble) (hp : p = t ++ 0x0#4 ++ 0x0#4 ++ n) (op : Word) :
    OpRow.accepts ⟨p, 0xF00F⟩ op = true ↔ opTop op = t ∧ opN op = n := by
  subst hp
  simp only [OpRow.accepts, beq_iff_eq]
  rw [show (0xF00F : Word) = 0xF00F#16 from rfl, and_F00F]
  constructor
  · intro h
    have h1 := fields_txyn (opTop op) 0#4 0#4 (opN op)
    have h2 := fields_txyn t 0#4 0#4 n
    rw [h] at h1
    exact ⟨h1.1.symm.trans h2.1, h1.2.2.2.symm.trans h2.2.2.2⟩
  · rintro ⟨h1, h2⟩; rw [h1, h2]

/-- A row with mask 0xF0FF fixes the top nibble and the low byte. -/
theorem accepts_F0FF {p : Word} (t : Nibble) (k : Byte) (hp : p = t ++ 0x0#4 ++ k) (op : Word) :
    OpRow.accepts ⟨p, 0xF0FF⟩ op = true ↔ opTop op = t ∧ opKk op = k := by
  subst hp
  simp only [OpRow.accepts, beq_iff_eq]
  rw [show (0xF0FF : Word) = 0xF0FF#16 from rfl, and_F0FF]
  constructor
  · intro h
    have h1 := fields_txkk (opTop op) 0#4 (opKk op)
    have h2 := fields_txkk t 0#4 k
    rw [h] at h1
    exact ⟨h1.1.symm.trans h2.1, h1.2.2.symm.trans h2.2.2⟩
  · rintro ⟨h1, h2⟩; rw [h1, h2]

/-- A row with mask 0xFFFF fixes the whole word. -/
theorem accepts_FFFF (p op : Word) : OpRow.accepts ⟨p, 0xFFFF⟩ op = true ↔ op = p := by
  have h : op &&& 0xFFFF = op := by
    rw [show (0xFFFF : Word) = BitVec.allOnes 16 from by decide, BitVec.and_allOnes]
  simp only [OpRow.accepts, h, beq_iff_eq]

end Sys2Proof
end

