-- ==== Sys2Proof/Laws/Memory.lean ====
section
/-!
SUPPORT. The laws of memory: a read after a write, that every memory operation keeps the canonical form, and what the
runs of reads and writes do.
-/

namespace Sys2Proof.Machine

/-! ### Lookup after entering and dropping -/

theorem lookup_enter_same (m : Memory) (a : Nat) (v : Byte) : Memory.lookup (Memory.enter m a v) a = v := by
  induction m with
  | nil => simp [Memory.enter, Memory.lookup]
  | cons p m ih =>
    obtain ⟨b, w⟩ := p
    simp only [Memory.enter]
    split
    · simp [Memory.lookup]
    · split
      · simp [Memory.lookup]
      · next h => simp [Memory.lookup, h, ih]

theorem lookup_enter_other (m : Memory) {a c : Nat} (v : Byte) (h : c ≠ a) :
    Memory.lookup (Memory.enter m a v) c = Memory.lookup m c := by
  induction m with
  | nil => simp [Memory.enter, Memory.lookup, h]
  | cons p m ih =>
    obtain ⟨b, w⟩ := p
    simp only [Memory.enter]
    split
    · simp [Memory.lookup, h]
    · split
      · next hab => subst hab; simp [Memory.lookup, h]
      · simp [Memory.lookup, ih]

/-- Below every listed address memory reads as unlisted. -/
theorem lookup_below (m : Memory) {lo a : Nat} (hw : Memory.wfFrom lo m = true) (h : a < lo) :
    Memory.lookup m a = Config.resetByte a := by
  induction m generalizing lo with
  | nil => rfl
  | cons p m ih =>
    obtain ⟨b, w⟩ := p
    simp only [Memory.wfFrom, Bool.and_eq_true, decide_eq_true_eq] at hw
    have : a ≠ b := by omega
    simp only [Memory.lookup, this, if_false]
    exact ih hw.2 (by omega)

theorem lookup_drop_same (m : Memory) {lo a : Nat} (hw : Memory.wfFrom lo m = true) :
    Memory.lookup (Memory.drop m a) a = Config.resetByte a := by
  induction m generalizing lo with
  | nil => rfl
  | cons p m ih =>
    obtain ⟨b, w⟩ := p
    simp only [Memory.wfFrom, Bool.and_eq_true, decide_eq_true_eq] at hw
    simp only [Memory.drop]
    split
    · next h => subst h; exact lookup_below m hw.2 (by omega)
    · next h => simp only [Memory.lookup, h, if_false]; exact ih hw.2

theorem lookup_drop_other (m : Memory) {a c : Nat} (h : c ≠ a) :
    Memory.lookup (Memory.drop m a) c = Memory.lookup m c := by
  induction m with
  | nil => rfl
  | cons p m ih =>
    obtain ⟨b, w⟩ := p
    simp only [Memory.drop]
    split
    · next hab => subst hab; simp [Memory.lookup, h]
    · simp [Memory.lookup, ih]

/-! ### The canonical form is kept -/

theorem wfFrom_mono {lo lo' : Nat} (m : Memory) (h : lo' ≤ lo) (hw : Memory.wfFrom lo m = true) :
    Memory.wfFrom lo' m = true := by
  cases m with
  | nil => rfl
  | cons p m =>
    simp only [Memory.wfFrom, Bool.and_eq_true, decide_eq_true_eq] at hw ⊢
    exact ⟨⟨⟨by omega, hw.1.1.2⟩, hw.1.2⟩, hw.2⟩

theorem enter_wfFrom (m : Memory) {lo a : Nat} {v : Byte} (hw : Memory.wfFrom lo m = true) (hlo : lo ≤ a)
    (ha : a < 4096) (hv : v ≠ Config.resetByte a) : Memory.wfFrom lo (Memory.enter m a v) = true := by
  induction m generalizing lo with
  | nil => simp [Memory.enter, Memory.wfFrom, hlo, ha, hv]
  | cons p m ih =>
    obtain ⟨b, w⟩ := p
    simp only [Memory.wfFrom, Bool.and_eq_true, decide_eq_true_eq] at hw
    simp only [Memory.enter]
    split
    · simp only [Memory.wfFrom, Bool.and_eq_true, decide_eq_true_eq]
      exact ⟨⟨⟨hlo, ha⟩, hv⟩, ⟨⟨by omega, hw.1.1.2⟩, hw.1.2⟩, hw.2⟩
    · split
      · next h =>
        subst h
        simp only [Memory.wfFrom, Bool.and_eq_true, decide_eq_true_eq]
        exact ⟨⟨⟨hlo, ha⟩, hv⟩, hw.2⟩
      · simp only [Memory.wfFrom, Bool.and_eq_true, decide_eq_true_eq]
        exact ⟨hw.1, ih hw.2 (by omega)⟩

theorem drop_wfFrom (m : Memory) {lo a : Nat} (hw : Memory.wfFrom lo m = true) :
    Memory.wfFrom lo (Memory.drop m a) = true := by
  induction m generalizing lo with
  | nil => rfl
  | cons p m ih =>
    obtain ⟨b, w⟩ := p
    simp only [Memory.wfFrom, Bool.and_eq_true, decide_eq_true_eq] at hw
    simp only [Memory.drop]
    split
    · exact wfFrom_mono m (by omega) hw.2
    · simp only [Memory.wfFrom, Bool.and_eq_true, decide_eq_true_eq]
      exact ⟨hw.1, ih hw.2⟩

/-- A write keeps memory canonical. -/
theorem write_wf (m : Memory) (c : Fin 4096) (v : Byte) (hw : m.wf = true) : (m.write c v).wf = true := by
  simp only [Memory.write, Memory.wf]
  split
  · exact drop_wfFrom m hw
  · next h => exact enter_wfFrom m hw (Nat.zero_le _) c.isLt h

/-! ### Read after write (R49) -/

/-- A read of the cell just written gives the value written. -/
theorem read_write_same (m : Memory) (c : Fin 4096) (v : Byte) (hw : m.wf = true) : (m.write c v).read c = v := by
  simp only [Memory.write, Memory.read]
  split
  · next h => rw [lookup_drop_same m hw, h]
  · exact lookup_enter_same m c.val v

/-- A write leaves every other cell alone. -/
theorem read_write_other (m : Memory) {c a : Fin 4096} (v : Byte) (h : a ≠ c) : (m.write c v).read a = m.read a := by
  have hn : a.val ≠ c.val := fun e => h (Fin.ext e)
  simp only [Memory.write, Memory.read]
  split
  · exact lookup_drop_other m hn
  · exact lookup_enter_other m v hn

/-! ### Runs of cells -/

theorem writeCells_wf (m : Memory) (cs : List (Fin 4096)) (bs : List Byte) (hw : m.wf = true) :
    (writeCells m cs bs).wf = true := by
  induction cs generalizing m bs with
  | nil => cases bs <;> exact hw
  | cons c cs ih =>
    cases bs with
    | nil => exact hw
    | cons b bs => exact ih (m.write c b) bs (write_wf m c b hw)

theorem read_writeCells_other (m : Memory) (cs : List (Fin 4096)) (bs : List Byte) {a : Fin 4096} (h : a ∉ cs) :
    (writeCells m cs bs).read a = m.read a := by
  induction cs generalizing m bs with
  | nil => cases bs <;> rfl
  | cons c cs ih =>
    cases bs with
    | nil => rfl
    | cons b bs =>
      simp only [List.mem_cons, not_or] at h
      exact (ih (m.write c b) bs h.2).trans (read_write_other m b h.1)

/-- A run of writes to distinct cells reads back what was written to each. -/
theorem readCells_writeCells (m : Memory) (cs : List (Fin 4096)) (bs : List Byte) (hw : m.wf = true)
    (hd : cs.Nodup) (hl : cs.length = bs.length) : readCells (writeCells m cs bs) cs = bs := by
  induction cs generalizing m bs with
  | nil =>
    cases bs with
    | nil => rfl
    | cons b bs => simp at hl
  | cons c cs ih =>
    cases bs with
    | nil => simp at hl
    | cons b bs =>
      simp only [List.nodup_cons] at hd
      simp only [List.length_cons, Nat.add_right_cancel_iff] at hl
      simp only [readCells, writeCells]
      rw [read_writeCells_other _ cs bs hd.1, read_write_same m c b hw, ih _ bs (write_wf m c b hw) hd.2 hl]

theorem readCells_eq_map (m : Memory) (cs : List (Fin 4096)) : readCells m cs = cs.map (fun c => m.read c) := by
  induction cs with
  | nil => rfl
  | cons c cs ih => simp [readCells, ih]

theorem writeFrom_wf (m : Memory) (a : Nat) (bs : List Byte) (hw : m.wf = true) : (writeFrom m a bs).wf = true := by
  induction bs generalizing m a with
  | nil => exact hw
  | cons b bs ih => exact ih _ _ (write_wf m _ b hw)

/-- What a cell reads as after a run of writes that stays inside memory. -/
theorem read_writeFrom (m : Memory) (a : Nat) (bs : List Byte) (hw : m.wf = true) (h : a + bs.length ≤ 4096)
    (c : Fin 4096) :
    (writeFrom m a bs).read c =
      if hc : a ≤ c.val ∧ c.val - a < bs.length then bs[c.val - a]'hc.2 else m.read c := by
  induction bs generalizing m a with
  | nil => simp [writeFrom]
  | cons b bs ih =>
    simp only [List.length_cons] at h
    simp only [writeFrom]
    have ha : a % 4096 = a := Nat.mod_eq_of_lt (by omega)
    rw [ih _ _ (write_wf m _ b hw) (by omega)]
    by_cases h1 : a + 1 ≤ c.val ∧ c.val - (a + 1) < bs.length
    · have h2 : a ≤ c.val ∧ c.val - a < (b :: bs).length := by simp only [List.length_cons]; omega
      rw [dif_pos h1, dif_pos h2]
      have h3 : c.val - a = (c.val - (a + 1)) + 1 := by omega
      simp [h3]
    · rw [dif_neg h1]
      by_cases h2 : c.val = a
      · have h3 : c = ⟨a % 4096, Nat.mod_lt a (by decide)⟩ := Fin.ext (by simp [ha, h2])
        have h4 : a ≤ c.val ∧ c.val - a < (b :: bs).length := by simp only [List.length_cons]; omega
        have h5 : (b :: bs)[c.val - a]'h4.2 = b := by simp [show c.val - a = 0 by omega]
        rw [dif_pos h4, h5, h3, read_write_same _ _ _ hw]
      · have h3 : c ≠ ⟨a % 4096, Nat.mod_lt a (by decide)⟩ := fun e => h2 (by rw [e]; exact ha)
        have h4 : ¬ (a ≤ c.val ∧ c.val - a < (b :: bs).length) := by simp only [List.length_cons]; omega
        rw [dif_neg h4, read_write_other _ _ h3]

end Sys2Proof.Machine
end

