-- ==== Sys2Proof/Laws/State.lean ====
section
/-!
SUPPORT. One lemma per field per named update, so that no proof unfolds a record update; and what a register reads as
after each update.
-/

namespace Sys2Proof.Machine

/-! ### writeV -/

@[simp] theorem writeV_params (s : State) (x : Nibble) (b : Byte) : (writeV s x b).params = s.params := rfl
@[simp] theorem writeV_mem (s : State) (x : Nibble) (b : Byte) : (writeV s x b).mem = s.mem := rfl
@[simp] theorem writeV_v (s : State) (x : Nibble) (b : Byte) : (writeV s x b).v = s.v.set x.toNat b x.isLt := rfl
@[simp] theorem writeV_i (s : State) (x : Nibble) (b : Byte) : (writeV s x b).i = s.i := rfl
@[simp] theorem writeV_pc (s : State) (x : Nibble) (b : Byte) : (writeV s x b).pc = s.pc := rfl
@[simp] theorem writeV_stack (s : State) (x : Nibble) (b : Byte) : (writeV s x b).stack = s.stack := rfl
@[simp] theorem writeV_dt (s : State) (x : Nibble) (b : Byte) : (writeV s x b).dt = s.dt := rfl
@[simp] theorem writeV_st (s : State) (x : Nibble) (b : Byte) : (writeV s x b).st = s.st := rfl
@[simp] theorem writeV_paused (s : State) (x : Nibble) (b : Byte) : (writeV s x b).paused = s.paused := rfl
@[simp] theorem writeV_pending (s : State) (x : Nibble) (b : Byte) : (writeV s x b).pending = s.pending := rfl
@[simp] theorem writeV_fault (s : State) (x : Nibble) (b : Byte) : (writeV s x b).fault = s.fault := rfl
@[simp] theorem writeV_audioOn (s : State) (x : Nibble) (b : Byte) : (writeV s x b).audioOn = s.audioOn := rfl
@[simp] theorem writeV_fb (s : State) (x : Nibble) (b : Byte) : (writeV s x b).fb = s.fb := rfl
@[simp] theorem writeV_randomDraws (s : State) (x : Nibble) (b : Byte) : (writeV s x b).randomDraws = s.randomDraws := rfl
@[simp] theorem writeV_keyDraws (s : State) (x : Nibble) (b : Byte) : (writeV s x b).keyDraws = s.keyDraws := rfl

/-! ### writeI -/

@[simp] theorem writeI_params (s : State) (w : Word) : (writeI s w).params = s.params := rfl
@[simp] theorem writeI_mem (s : State) (w : Word) : (writeI s w).mem = s.mem := rfl
@[simp] theorem writeI_v (s : State) (w : Word) : (writeI s w).v = s.v := rfl
@[simp] theorem writeI_i (s : State) (w : Word) : (writeI s w).i = w := rfl
@[simp] theorem writeI_pc (s : State) (w : Word) : (writeI s w).pc = s.pc := rfl
@[simp] theorem writeI_stack (s : State) (w : Word) : (writeI s w).stack = s.stack := rfl
@[simp] theorem writeI_dt (s : State) (w : Word) : (writeI s w).dt = s.dt := rfl
@[simp] theorem writeI_st (s : State) (w : Word) : (writeI s w).st = s.st := rfl
@[simp] theorem writeI_paused (s : State) (w : Word) : (writeI s w).paused = s.paused := rfl
@[simp] theorem writeI_pending (s : State) (w : Word) : (writeI s w).pending = s.pending := rfl
@[simp] theorem writeI_fault (s : State) (w : Word) : (writeI s w).fault = s.fault := rfl
@[simp] theorem writeI_audioOn (s : State) (w : Word) : (writeI s w).audioOn = s.audioOn := rfl
@[simp] theorem writeI_fb (s : State) (w : Word) : (writeI s w).fb = s.fb := rfl
@[simp] theorem writeI_randomDraws (s : State) (w : Word) : (writeI s w).randomDraws = s.randomDraws := rfl
@[simp] theorem writeI_keyDraws (s : State) (w : Word) : (writeI s w).keyDraws = s.keyDraws := rfl

/-! ### jumpTo -/

@[simp] theorem jumpTo_params (s : State) (w : Word) : (jumpTo s w).params = s.params := rfl
@[simp] theorem jumpTo_mem (s : State) (w : Word) : (jumpTo s w).mem = s.mem := rfl
@[simp] theorem jumpTo_v (s : State) (w : Word) : (jumpTo s w).v = s.v := rfl
@[simp] theorem jumpTo_i (s : State) (w : Word) : (jumpTo s w).i = s.i := rfl
@[simp] theorem jumpTo_pc (s : State) (w : Word) : (jumpTo s w).pc = w := rfl
@[simp] theorem jumpTo_stack (s : State) (w : Word) : (jumpTo s w).stack = s.stack := rfl
@[simp] theorem jumpTo_dt (s : State) (w : Word) : (jumpTo s w).dt = s.dt := rfl
@[simp] theorem jumpTo_st (s : State) (w : Word) : (jumpTo s w).st = s.st := rfl
@[simp] theorem jumpTo_paused (s : State) (w : Word) : (jumpTo s w).paused = s.paused := rfl
@[simp] theorem jumpTo_pending (s : State) (w : Word) : (jumpTo s w).pending = s.pending := rfl
@[simp] theorem jumpTo_fault (s : State) (w : Word) : (jumpTo s w).fault = s.fault := rfl
@[simp] theorem jumpTo_audioOn (s : State) (w : Word) : (jumpTo s w).audioOn = s.audioOn := rfl
@[simp] theorem jumpTo_fb (s : State) (w : Word) : (jumpTo s w).fb = s.fb := rfl
@[simp] theorem jumpTo_randomDraws (s : State) (w : Word) : (jumpTo s w).randomDraws = s.randomDraws := rfl
@[simp] theorem jumpTo_keyDraws (s : State) (w : Word) : (jumpTo s w).keyDraws = s.keyDraws := rfl

/-! ### advancePc -/

@[simp] theorem advancePc_params (s : State) : (advancePc s).params = s.params := rfl
@[simp] theorem advancePc_mem (s : State) : (advancePc s).mem = s.mem := rfl
@[simp] theorem advancePc_v (s : State) : (advancePc s).v = s.v := rfl
@[simp] theorem advancePc_i (s : State) : (advancePc s).i = s.i := rfl
@[simp] theorem advancePc_pc (s : State) : (advancePc s).pc = s.pc + 2 := rfl
@[simp] theorem advancePc_stack (s : State) : (advancePc s).stack = s.stack := rfl
@[simp] theorem advancePc_dt (s : State) : (advancePc s).dt = s.dt := rfl
@[simp] theorem advancePc_st (s : State) : (advancePc s).st = s.st := rfl
@[simp] theorem advancePc_paused (s : State) : (advancePc s).paused = s.paused := rfl
@[simp] theorem advancePc_pending (s : State) : (advancePc s).pending = s.pending := rfl
@[simp] theorem advancePc_fault (s : State) : (advancePc s).fault = s.fault := rfl
@[simp] theorem advancePc_audioOn (s : State) : (advancePc s).audioOn = s.audioOn := rfl
@[simp] theorem advancePc_fb (s : State) : (advancePc s).fb = s.fb := rfl
@[simp] theorem advancePc_randomDraws (s : State) : (advancePc s).randomDraws = s.randomDraws := rfl
@[simp] theorem advancePc_keyDraws (s : State) : (advancePc s).keyDraws = s.keyDraws := rfl

/-! ### raise -/

@[simp] theorem raise_params (s : State) (f : Fault) : (raise s f).params = s.params := rfl
@[simp] theorem raise_mem (s : State) (f : Fault) : (raise s f).mem = s.mem := rfl
@[simp] theorem raise_v (s : State) (f : Fault) : (raise s f).v = s.v := rfl
@[simp] theorem raise_i (s : State) (f : Fault) : (raise s f).i = s.i := rfl
@[simp] theorem raise_pc (s : State) (f : Fault) : (raise s f).pc = s.pc := rfl
@[simp] theorem raise_stack (s : State) (f : Fault) : (raise s f).stack = s.stack := rfl
@[simp] theorem raise_dt (s : State) (f : Fault) : (raise s f).dt = s.dt := rfl
@[simp] theorem raise_st (s : State) (f : Fault) : (raise s f).st = s.st := rfl
@[simp] theorem raise_paused (s : State) (f : Fault) : (raise s f).paused = s.paused := rfl
@[simp] theorem raise_pending (s : State) (f : Fault) : (raise s f).pending = s.pending := rfl
@[simp] theorem raise_fault (s : State) (f : Fault) : (raise s f).fault = some f := rfl
@[simp] theorem raise_audioOn (s : State) (f : Fault) : (raise s f).audioOn = s.audioOn := rfl
@[simp] theorem raise_fb (s : State) (f : Fault) : (raise s f).fb = s.fb := rfl
@[simp] theorem raise_randomDraws (s : State) (f : Fault) : (raise s f).randomDraws = s.randomDraws := rfl
@[simp] theorem raise_keyDraws (s : State) (f : Fault) : (raise s f).keyDraws = s.keyDraws := rfl

/-! ### randomByte_snd -/

@[simp] theorem randomByte_snd_params (s : State) : (randomByte s).2.params = s.params := rfl
@[simp] theorem randomByte_snd_mem (s : State) : (randomByte s).2.mem = s.mem := rfl
@[simp] theorem randomByte_snd_v (s : State) : (randomByte s).2.v = s.v := rfl
@[simp] theorem randomByte_snd_i (s : State) : (randomByte s).2.i = s.i := rfl
@[simp] theorem randomByte_snd_pc (s : State) : (randomByte s).2.pc = s.pc := rfl
@[simp] theorem randomByte_snd_stack (s : State) : (randomByte s).2.stack = s.stack := rfl
@[simp] theorem randomByte_snd_dt (s : State) : (randomByte s).2.dt = s.dt := rfl
@[simp] theorem randomByte_snd_st (s : State) : (randomByte s).2.st = s.st := rfl
@[simp] theorem randomByte_snd_paused (s : State) : (randomByte s).2.paused = s.paused := rfl
@[simp] theorem randomByte_snd_pending (s : State) : (randomByte s).2.pending = s.pending := rfl
@[simp] theorem randomByte_snd_fault (s : State) : (randomByte s).2.fault = s.fault := rfl
@[simp] theorem randomByte_snd_audioOn (s : State) : (randomByte s).2.audioOn = s.audioOn := rfl
@[simp] theorem randomByte_snd_fb (s : State) : (randomByte s).2.fb = s.fb := rfl
@[simp] theorem randomByte_snd_randomDraws (s : State) : (randomByte s).2.randomDraws = s.randomDraws + 1 := rfl
@[simp] theorem randomByte_snd_keyDraws (s : State) : (randomByte s).2.keyDraws = s.keyDraws := rfl

/-! ### writeFlagged -/

@[simp] theorem writeFlagged_params (s : State) (x : Nibble) (flag : Bool) (b : Byte) : (writeFlagged s x flag b).params = s.params := rfl
@[simp] theorem writeFlagged_mem (s : State) (x : Nibble) (flag : Bool) (b : Byte) : (writeFlagged s x flag b).mem = s.mem := rfl
@[simp] theorem writeFlagged_v (s : State) (x : Nibble) (flag : Bool) (b : Byte) : (writeFlagged s x flag b).v = (s.v.set regF.toNat (flagByte flag) regF.isLt).set x.toNat b x.isLt := rfl
@[simp] theorem writeFlagged_i (s : State) (x : Nibble) (flag : Bool) (b : Byte) : (writeFlagged s x flag b).i = s.i := rfl
@[simp] theorem writeFlagged_pc (s : State) (x : Nibble) (flag : Bool) (b : Byte) : (writeFlagged s x flag b).pc = s.pc := rfl
@[simp] theorem writeFlagged_stack (s : State) (x : Nibble) (flag : Bool) (b : Byte) : (writeFlagged s x flag b).stack = s.stack := rfl
@[simp] theorem writeFlagged_dt (s : State) (x : Nibble) (flag : Bool) (b : Byte) : (writeFlagged s x flag b).dt = s.dt := rfl
@[simp] theorem writeFlagged_st (s : State) (x : Nibble) (flag : Bool) (b : Byte) : (writeFlagged s x flag b).st = s.st := rfl
@[simp] theorem writeFlagged_paused (s : State) (x : Nibble) (flag : Bool) (b : Byte) : (writeFlagged s x flag b).paused = s.paused := rfl
@[simp] theorem writeFlagged_pending (s : State) (x : Nibble) (flag : Bool) (b : Byte) : (writeFlagged s x flag b).pending = s.pending := rfl
@[simp] theorem writeFlagged_fault (s : State) (x : Nibble) (flag : Bool) (b : Byte) : (writeFlagged s x flag b).fault = s.fault := rfl
@[simp] theorem writeFlagged_audioOn (s : State) (x : Nibble) (flag : Bool) (b : Byte) : (writeFlagged s x flag b).audioOn = s.audioOn := rfl
@[simp] theorem writeFlagged_fb (s : State) (x : Nibble) (flag : Bool) (b : Byte) : (writeFlagged s x flag b).fb = s.fb := rfl
@[simp] theorem writeFlagged_randomDraws (s : State) (x : Nibble) (flag : Bool) (b : Byte) : (writeFlagged s x flag b).randomDraws = s.randomDraws := rfl
@[simp] theorem writeFlagged_keyDraws (s : State) (x : Nibble) (flag : Bool) (b : Byte) : (writeFlagged s x flag b).keyDraws = s.keyDraws := rfl

/-! ### audioSignal -/

@[simp] theorem audioSignal_params (s : State) : (audioSignal s).params = s.params := rfl
@[simp] theorem audioSignal_mem (s : State) : (audioSignal s).mem = s.mem := rfl
@[simp] theorem audioSignal_v (s : State) : (audioSignal s).v = s.v := rfl
@[simp] theorem audioSignal_i (s : State) : (audioSignal s).i = s.i := rfl
@[simp] theorem audioSignal_pc (s : State) : (audioSignal s).pc = s.pc := rfl
@[simp] theorem audioSignal_stack (s : State) : (audioSignal s).stack = s.stack := rfl
@[simp] theorem audioSignal_dt (s : State) : (audioSignal s).dt = s.dt := rfl
@[simp] theorem audioSignal_st (s : State) : (audioSignal s).st = s.st := rfl
@[simp] theorem audioSignal_paused (s : State) : (audioSignal s).paused = s.paused := rfl
@[simp] theorem audioSignal_pending (s : State) : (audioSignal s).pending = s.pending := rfl
@[simp] theorem audioSignal_fault (s : State) : (audioSignal s).fault = s.fault := rfl
@[simp] theorem audioSignal_audioOn (s : State) : (audioSignal s).audioOn = decide (0 < s.st.toNat) := rfl
@[simp] theorem audioSignal_fb (s : State) : (audioSignal s).fb = s.fb := rfl
@[simp] theorem audioSignal_randomDraws (s : State) : (audioSignal s).randomDraws = s.randomDraws := rfl
@[simp] theorem audioSignal_keyDraws (s : State) : (audioSignal s).keyDraws = s.keyDraws := rfl

/-! ### skipIf -/

@[simp] theorem skipIf_params (s : State) (b : Bool) : (skipIf s b).params = s.params := rfl
@[simp] theorem skipIf_mem (s : State) (b : Bool) : (skipIf s b).mem = s.mem := rfl
@[simp] theorem skipIf_v (s : State) (b : Bool) : (skipIf s b).v = s.v := rfl
@[simp] theorem skipIf_i (s : State) (b : Bool) : (skipIf s b).i = s.i := rfl
@[simp] theorem skipIf_pc (s : State) (b : Bool) : (skipIf s b).pc = if b then s.pc + 2 else s.pc := rfl
@[simp] theorem skipIf_stack (s : State) (b : Bool) : (skipIf s b).stack = s.stack := rfl
@[simp] theorem skipIf_dt (s : State) (b : Bool) : (skipIf s b).dt = s.dt := rfl
@[simp] theorem skipIf_st (s : State) (b : Bool) : (skipIf s b).st = s.st := rfl
@[simp] theorem skipIf_paused (s : State) (b : Bool) : (skipIf s b).paused = s.paused := rfl
@[simp] theorem skipIf_pending (s : State) (b : Bool) : (skipIf s b).pending = s.pending := rfl
@[simp] theorem skipIf_fault (s : State) (b : Bool) : (skipIf s b).fault = s.fault := rfl
@[simp] theorem skipIf_audioOn (s : State) (b : Bool) : (skipIf s b).audioOn = s.audioOn := rfl
@[simp] theorem skipIf_fb (s : State) (b : Bool) : (skipIf s b).fb = s.fb := rfl
@[simp] theorem skipIf_randomDraws (s : State) (b : Bool) : (skipIf s b).randomDraws = s.randomDraws := rfl
@[simp] theorem skipIf_keyDraws (s : State) (b : Bool) : (skipIf s b).keyDraws = s.keyDraws := rfl

/-! ### timerStep -/

@[simp] theorem timerStep_params (s : State) : (timerStep s).params = s.params := by
  unfold timerStep; split <;> rfl
@[simp] theorem timerStep_mem (s : State) : (timerStep s).mem = s.mem := by
  unfold timerStep; split <;> rfl
@[simp] theorem timerStep_v (s : State) : (timerStep s).v = s.v := by
  unfold timerStep; split <;> rfl
@[simp] theorem timerStep_i (s : State) : (timerStep s).i = s.i := by
  unfold timerStep; split <;> rfl
@[simp] theorem timerStep_pc (s : State) : (timerStep s).pc = s.pc := by
  unfold timerStep; split <;> rfl
@[simp] theorem timerStep_stack (s : State) : (timerStep s).stack = s.stack := by
  unfold timerStep; split <;> rfl
@[simp] theorem timerStep_dt (s : State) :
    (timerStep s).dt = if s.paused then s.dt else countDown s.dt := by
  unfold timerStep; split <;> rfl
@[simp] theorem timerStep_st (s : State) :
    (timerStep s).st = if s.paused then s.st else countDown s.st := by
  unfold timerStep; split <;> rfl
@[simp] theorem timerStep_paused (s : State) : (timerStep s).paused = s.paused := by
  unfold timerStep; split <;> rfl
@[simp] theorem timerStep_pending (s : State) : (timerStep s).pending = s.pending := by
  unfold timerStep; split <;> rfl
@[simp] theorem timerStep_fault (s : State) : (timerStep s).fault = s.fault := by
  unfold timerStep; split <;> rfl
@[simp] theorem timerStep_audioOn (s : State) : (timerStep s).audioOn = s.audioOn := by
  unfold timerStep; split <;> rfl
@[simp] theorem timerStep_fb (s : State) : (timerStep s).fb = s.fb := by
  unfold timerStep; split <;> rfl
@[simp] theorem timerStep_randomDraws (s : State) : (timerStep s).randomDraws = s.randomDraws := by
  unfold timerStep; split <;> rfl
@[simp] theorem timerStep_keyDraws (s : State) : (timerStep s).keyDraws = s.keyDraws := by
  unfold timerStep; split <;> rfl

/-! ### Reading registers -/

/-- Two registers are the same one iff their numbers are. -/
theorem regNumber_inj {x y : Nibble} : x.toNat = y.toNat ↔ x = y := BitVec.toNat_inj

@[simp] theorem readV_writeV_same (s : State) (x : Nibble) (b : Byte) : readV (writeV s x b) x = b := by
  simp [readV]

theorem readV_writeV_other (s : State) {x r : Nibble} (b : Byte) (h : r ≠ x) :
    readV (writeV s x b) r = readV s r := by
  have hn : x.toNat ≠ r.toNat := fun e => h (regNumber_inj.mp e.symm)
  simp [readV, Vector.getElem_set_ne _ _ hn]

theorem readV_writeV (s : State) (x r : Nibble) (b : Byte) :
    readV (writeV s x b) r = if r = x then b else readV s r := by
  split
  · next h => subst h; exact readV_writeV_same s r b
  · next h => exact readV_writeV_other s b h

@[simp] theorem readV_writeI (s : State) (w : Word) (r : Nibble) : readV (writeI s w) r = readV s r := rfl
@[simp] theorem readV_jumpTo (s : State) (w : Word) (r : Nibble) : readV (jumpTo s w) r = readV s r := rfl
@[simp] theorem readV_advancePc (s : State) (r : Nibble) : readV (advancePc s) r = readV s r := rfl
@[simp] theorem readV_raise (s : State) (f : Fault) (r : Nibble) : readV (raise s f) r = readV s r := rfl
@[simp] theorem readV_randomByte_snd (s : State) (r : Nibble) : readV (randomByte s).2 r = readV s r := rfl
@[simp] theorem readV_skipIf (s : State) (b : Bool) (r : Nibble) : readV (skipIf s b) r = readV s r := by
  cases b <;> rfl

/-- What a flag instruction leaves in a register: the result in `Vx`, else the flag in `VF` (R64). -/
theorem readV_writeFlagged (s : State) (x r : Nibble) (flag : Bool) (b : Byte) :
    readV (writeFlagged s x flag b) r = if r = x then b else if r = regF then flagByte flag else readV s r := by
  simp only [writeFlagged, readV_writeV]

/-- A state that differs from `s` in its registers only reads them from there. -/
theorem readV_withV (s : State) (v : Vector Byte 16) (r : Nibble) :
    readV { s with v := v } r = v[r.toNat]'r.isLt := rfl

end Sys2Proof.Machine
end

