-- ==== Sys2Proof/Laws/Ops.lean ====
section
/-!
SUPPORT. One lemma per shared operation that says everything it can do: address formation, the fetch, the stack, the
key query, the framebuffer, and the sprite.
-/

namespace Sys2Proof.Machine

open Sys2Proof.Safety

/-! ### How an instruction ends -/

/-- `finish` always answers a next state: its own, or the start state with a fault raised (R150). -/
theorem finish_cases (s : State) (r : Except Fault State) :
    (∃ t, r = .ok t ∧ finish s r = .next t) ∨ (∃ f, r = .error f ∧ finish s r = .next (raise s f)) := by
  cases r with
  | ok t => exact .inl ⟨t, rfl, rfl⟩
  | error f => exact .inr ⟨f, rfl, rfl⟩

@[simp] theorem finish_ok (s t : State) : finish s (.ok t) = .next t := rfl
@[simp] theorem finish_error (s : State) (f : Fault) : finish s (.error f) = .next (raise s f) := rfl

/-! ### Address formation (R48, R50) -/

/-- Address formation gives the cell, or reports an address of 4096 or more under `MEM_OOR = fault`. -/
theorem cellOf_cases (p : Params) (a : Nat) :
    ((p.memOor = .wrap ∨ a < 4096) ∧ cellOf p a = .ok (cellAt a)) ∨
    (p.memOor = .fault ∧ 4096 ≤ a ∧ cellOf p a = .error (.memoryRange a)) := by
  unfold cellOf
  split
  · next h => exact .inl ⟨.inl h, rfl⟩
  · next h =>
    by_cases ha : a < 4096
    · refine .inl ⟨.inr ha, ?_⟩
      simp only [ha, dif_pos, cellAt, Except.ok.injEq, Fin.mk.injEq]
      exact (Nat.mod_eq_of_lt ha).symm
    · exact .inr ⟨h, by omega, by simp [ha]⟩

theorem cellOf_ok {p : Params} {a : Nat} (h : p.memOor = .wrap ∨ a < 4096) : cellOf p a = .ok (cellAt a) := by
  rcases cellOf_cases p a with h1 | h1
  · exact h1.2
  · rcases h with h | h
    · rw [h1.1] at h; cases h
    · omega

/-- The cells of `n` addresses from `a`: all of them, in order, or the lowest address out of range is reported. -/
theorem cellsOf_cases (p : Params) (a n : Nat) :
    ((n = 0 ∨ p.memOor = .wrap ∨ a + n ≤ 4096) ∧
      cellsOf p a n = .ok ((List.range n).map (fun r => cellAt (a + r)))) ∨
    (p.memOor = .fault ∧ 0 < n ∧ 4096 < a + n ∧ cellsOf p a n = .error (.memoryRange (max a 4096))) := by
  induction n generalizing a with
  | zero => exact .inl ⟨.inl rfl, rfl⟩
  | succ n ih =>
    simp only [cellsOf]
    have hr : (List.range (n + 1)).map (fun r => cellAt (a + r)) =
        cellAt a :: (List.range n).map (fun r => cellAt (a + 1 + r)) := by
      rw [List.range_succ_eq_map]
      simp [Function.comp_def, Nat.add_assoc, Nat.add_comm 1]
    rcases cellOf_cases p a with ⟨h1, h2⟩ | ⟨h1, h2, h3⟩
    · rw [h2]
      rcases ih (a + 1) with ⟨h4, h5⟩ | ⟨h4, h5, h6, h7⟩
      · refine .inl ⟨?_, by simp only [h5, hr]⟩
        rcases h1 with h1 | h1
        · exact .inr (.inl h1)
        · rcases h4 with h4 | h4 | h4
          · subst h4; exact .inr (.inr (by omega))
          · exact .inr (.inl h4)
          · exact .inr (.inr (by omega))
      · refine .inr ⟨h4, by omega, by omega, ?_⟩
        simp only [h7, Except.error.injEq, Fault.memoryRange.injEq]
        rcases h1 with h1 | h1
        · rw [h4] at h1; cases h1
        · omega
    · refine .inr ⟨h1, by omega, by omega, ?_⟩
      simp only [h3, Except.error.injEq, Fault.memoryRange.injEq]
      omega

theorem cellsAtI_ok {s : State} {n : Nat} (h : reachesAtI s n) :
    cellsAtI s n = .ok ((List.range n).map (fun r => cellAt (s.i.toNat + r))) := by
  rcases cellsOf_cases s.params s.i.toNat n with h1 | ⟨h1, h2, h3, _⟩
  · exact h1.2
  · rcases h with h | h | h
    · omega
    · rw [h1] at h; cases h
    · omega

/-- The cells of at most 4096 consecutive addresses are distinct. -/
theorem cellAt_run_nodup (a n : Nat) (hn : n ≤ 4096) : ((List.range n).map (fun r => cellAt (a + r))).Nodup := by
  refine List.Nodup.map_on ?_ List.nodup_range
  intro r hr q hq h
  simp only [List.mem_range] at hr hq
  simp only [cellAt, Fin.mk.injEq] at h
  omega

/-- The fetch gives the two bytes as a big-endian word, or reports an address out of range (R53, R155). -/
theorem fetch16_cases (p : Params) (m : Memory) (a : Nat) :
    ((p.memOor = .wrap ∨ a + 1 < 4096) ∧
      fetch16 p m a = .ok (wordOfBytes (m.read (cellAt a)) (m.read (cellAt (a + 1))))) ∨
    (p.memOor = .fault ∧ 4096 ≤ a + 1 ∧ fetch16 p m a = .error (.memoryRange (max a 4096))) := by
  unfold fetch16
  rcases cellOf_cases p a with ⟨h1, h2⟩ | ⟨h1, h2, h3⟩
  · rw [h2]
    rcases cellOf_cases p (a + 1) with ⟨h4, h5⟩ | ⟨h4, h5, h6⟩
    · exact .inl ⟨h4, by simp only [h5]⟩
    · refine .inr ⟨h4, h5, ?_⟩
      rcases h1 with h1 | h1
      · rw [h4] at h1; cases h1
      · simp only [h6, Except.error.injEq, Fault.memoryRange.injEq]; omega
  · refine .inr ⟨h1, by omega, ?_⟩
    simp only [h3, Except.error.injEq, Fault.memoryRange.injEq]; omega

/-! ### Stack (R24) -/

theorem push_cases (s : State) (w : Word) :
    (s.stack.length = s.params.stackDepth ∧ push s w = .error (.stackOverflow w)) ∨
    (s.stack.length ≠ s.params.stackDepth ∧ push s w = .ok { s with stack := s.stack ++ [w] }) := by
  unfold push
  split
  · next h => exact .inl ⟨h, rfl⟩
  · next h => exact .inr ⟨h, rfl⟩

theorem pop_cases (s : State) :
    (s.stack = [] ∧ pop s = .error .stackUnderflow) ∨
    (∃ rest w, s.stack = rest ++ [w] ∧ pop s = .ok (w, { s with stack := rest })) := by
  unfold pop
  rcases List.eq_nil_or_concat s.stack with h | ⟨rest, w, h⟩
  · exact .inl ⟨h, by simp [h]⟩
  · rw [List.concat_eq_append] at h
    exact .inr ⟨rest, w, h, by simp [h]⟩

/-! ### Keys (R107) -/

theorem keyIsDown_cases (s : State) (k : Byte) :
    (k.toNat ≤ 15 ∧ keyIsDown s k =
      .ok (Config.keyPressed s.keyDraws (k.setWidth 4), { s with keyDraws := s.keyDraws + 1 })) ∨
    (15 < k.toNat ∧ s.params.keyOor = .notPressed ∧ keyIsDown s k = .ok (false, s)) ∨
    (15 < k.toNat ∧ s.params.keyOor = .fault ∧ keyIsDown s k = .error (.keyRange k)) := by
  unfold keyIsDown
  split
  · next h => exact .inl ⟨h, rfl⟩
  · next h =>
    split
    · next hp => exact .inr (.inl ⟨by omega, hp, rfl⟩)
    · next hp => exact .inr (.inr ⟨by omega, hp, rfl⟩)

/-! ### Framebuffer (R176, R177) -/

theorem pixelAt_setPixelTo (fb : Framebuffer) (x y cx cy : Nat) (b : Bool) :
    pixelAt (setPixelTo fb x y b) cx cy =
      if cx % 64 = x % 64 ∧ cy % 32 = y % 32 then b else pixelAt fb cx cy := by
  unfold pixelAt setPixelTo
  by_cases hx : x % 64 = cx % 64
  · by_cases hy : y % 32 = cy % 32
    · simp [hx, hy]
    · have hy' : ¬ cy % 32 = y % 32 := fun e => hy e.symm
      simp [hx, hy, hy']
  · have hx' : ¬ cx % 64 = x % 64 := fun e => hx e.symm
    simp [hx, hx']

/-- `setPixel` toggles its cell and answers what the cell held. -/
theorem pixelAt_setPixel (fb : Framebuffer) (x y cx cy : Nat) :
    pixelAt (setPixel fb x y).1 cx cy =
      if cx % 64 = x % 64 ∧ cy % 32 = y % 32 then !pixelAt fb x y else pixelAt fb cx cy :=
  pixelAt_setPixelTo fb x y cx cy _

@[simp] theorem setPixel_erased (fb : Framebuffer) (x y : Nat) : (setPixel fb x y).2 = pixelAt fb x y := rfl

@[simp] theorem pixelAt_clearDisplay (x y : Nat) : pixelAt clearDisplay x y = false := by
  simp [pixelAt, clearDisplay]

/-- Two framebuffers with the same pixels are the same. -/
theorem framebuffer_ext {fb gb : Framebuffer} (h : ∀ x < 64, ∀ y < 32, pixelAt fb x y = pixelAt gb x y) : fb = gb := by
  apply Vector.ext
  intro x hx
  apply Vector.ext
  intro y hy
  have := h x hx y hy
  simpa [pixelAt, Nat.mod_eq_of_lt hx, Nat.mod_eq_of_lt hy] using this

/-! ### Register runs (R135, R136) -/

/-- A run loaded into the registers from number r on: the registers it reaches hold its bytes, the others what they held. -/
theorem getElem_loadRegisters (r : Nat) (bs : List Byte) (v : Vector Byte 16) (k : Nat) (hk : k < 16) :
    (loadRegisters r bs v)[k] = if h : r ≤ k ∧ k - r < bs.length then bs[k - r]'h.2 else v[k] := by
  induction bs generalizing r v with
  | nil => simp [loadRegisters]
  | cons b bs ih =>
    simp only [loadRegisters, ih, List.length_cons]
    rcases Nat.lt_trichotomy r k with h | h | h
    · have e : k - r = k - (r + 1) + 1 := by omega
      by_cases h2 : k - (r + 1) < bs.length
      · rw [dif_pos ⟨by omega, h2⟩, dif_pos ⟨by omega, by omega⟩]
        simp [e]
      · rw [dif_neg (by omega), dif_neg (by omega)]
        simp [Nat.ne_of_lt h]
    · subst h
      rw [dif_neg (by omega), dif_pos ⟨Nat.le_refl _, by omega⟩]
      simp
    · rw [dif_neg (by omega), dif_neg (by omega)]
      simp [Nat.ne_of_gt h]

end Sys2Proof.Machine
end

