-- ==== Sys2Proof/Laws/PerInstr.lean ====
section
/-!
SUPPORT. A statement per instruction, as syntax: the word an instruction encodes to is an encoding of its own row of the
opcode map (30_encoding.md R68), and that row is in the table, so the word is well-formed.
-/

namespace Sys2Proof.Laws.EncodesInRow

/-- The encoding of `i` matches the row of `i`, and `i`'s row is in the table. -/
def Statement (i : Instr) : Prop := i.row.accepts (encode i) = true ∧ i.row ∈ opcodeTable

/-- Every row is one of the table's. -/
theorem row_mem (i : Instr) : i.row ∈ opcodeTable := by
  cases i <;> simp [Instr.row, opcodeTable, opcodeRowsLow, opcodeRowsAlu, opcodeRowsHigh]

theorem cls : Statement .cls := ⟨by decide, row_mem _⟩

theorem ret : Statement .ret := ⟨by decide, row_mem _⟩

theorem jp (nnn : Addr12) : Statement (.jp nnn) :=
  ⟨(accepts_F000 0x1#4 (by decide) _).mpr (fields_tnnn _ nnn).1, row_mem _⟩

theorem call (nnn : Addr12) : Statement (.call nnn) :=
  ⟨(accepts_F000 0x2#4 (by decide) _).mpr (fields_tnnn _ nnn).1, row_mem _⟩

theorem seImm (x : Nibble) (kk : Byte) : Statement (.seImm x kk) :=
  ⟨(accepts_F000 0x3#4 (by decide) _).mpr (fields_txkk _ x kk).1, row_mem _⟩

theorem sneImm (x : Nibble) (kk : Byte) : Statement (.sneImm x kk) :=
  ⟨(accepts_F000 0x4#4 (by decide) _).mpr (fields_txkk _ x kk).1, row_mem _⟩

theorem seReg (x y : Nibble) : Statement (.seReg x y) :=
  have h := fields_txyn 0x5#4 x y 0x0#4
  ⟨(accepts_F00F 0x5#4 0x0#4 (by decide) _).mpr ⟨h.1, h.2.2.2⟩, row_mem _⟩

theorem ldImm (x : Nibble) (kk : Byte) : Statement (.ldImm x kk) :=
  ⟨(accepts_F000 0x6#4 (by decide) _).mpr (fields_txkk _ x kk).1, row_mem _⟩

theorem addImm (x : Nibble) (kk : Byte) : Statement (.addImm x kk) :=
  ⟨(accepts_F000 0x7#4 (by decide) _).mpr (fields_txkk _ x kk).1, row_mem _⟩

theorem ldReg (x y : Nibble) : Statement (.ldReg x y) :=
  have h := fields_txyn 0x8#4 x y 0x0#4
  ⟨(accepts_F00F 0x8#4 0x0#4 (by decide) _).mpr ⟨h.1, h.2.2.2⟩, row_mem _⟩

theorem orReg (x y : Nibble) : Statement (.orReg x y) :=
  have h := fields_txyn 0x8#4 x y 0x1#4
  ⟨(accepts_F00F 0x8#4 0x1#4 (by decide) _).mpr ⟨h.1, h.2.2.2⟩, row_mem _⟩

theorem andReg (x y : Nibble) : Statement (.andReg x y) :=
  have h := fields_txyn 0x8#4 x y 0x2#4
  ⟨(accepts_F00F 0x8#4 0x2#4 (by decide) _).mpr ⟨h.1, h.2.2.2⟩, row_mem _⟩

theorem xorReg (x y : Nibble) : Statement (.xorReg x y) :=
  have h := fields_txyn 0x8#4 x y 0x3#4
  ⟨(accepts_F00F 0x8#4 0x3#4 (by decide) _).mpr ⟨h.1, h.2.2.2⟩, row_mem _⟩

theorem addReg (x y : Nibble) : Statement (.addReg x y) :=
  have h := fields_txyn 0x8#4 x y 0x4#4
  ⟨(accepts_F00F 0x8#4 0x4#4 (by decide) _).mpr ⟨h.1, h.2.2.2⟩, row_mem _⟩

theorem subReg (x y : Nibble) : Statement (.subReg x y) :=
  have h := fields_txyn 0x8#4 x y 0x5#4
  ⟨(accepts_F00F 0x8#4 0x5#4 (by decide) _).mpr ⟨h.1, h.2.2.2⟩, row_mem _⟩

theorem shr (x y : Nibble) : Statement (.shr x y) :=
  have h := fields_txyn 0x8#4 x y 0x6#4
  ⟨(accepts_F00F 0x8#4 0x6#4 (by decide) _).mpr ⟨h.1, h.2.2.2⟩, row_mem _⟩

theorem subnReg (x y : Nibble) : Statement (.subnReg x y) :=
  have h := fields_txyn 0x8#4 x y 0x7#4
  ⟨(accepts_F00F 0x8#4 0x7#4 (by decide) _).mpr ⟨h.1, h.2.2.2⟩, row_mem _⟩

theorem shl (x y : Nibble) : Statement (.shl x y) :=
  have h := fields_txyn 0x8#4 x y 0xE#4
  ⟨(accepts_F00F 0x8#4 0xE#4 (by decide) _).mpr ⟨h.1, h.2.2.2⟩, row_mem _⟩

theorem sneReg (x y : Nibble) : Statement (.sneReg x y) :=
  have h := fields_txyn 0x9#4 x y 0x0#4
  ⟨(accepts_F00F 0x9#4 0x0#4 (by decide) _).mpr ⟨h.1, h.2.2.2⟩, row_mem _⟩

theorem ldI (nnn : Addr12) : Statement (.ldI nnn) :=
  ⟨(accepts_F000 0xA#4 (by decide) _).mpr (fields_tnnn _ nnn).1, row_mem _⟩

theorem jpV0 (nnn : Addr12) : Statement (.jpV0 nnn) :=
  ⟨(accepts_F000 0xB#4 (by decide) _).mpr (fields_tnnn _ nnn).1, row_mem _⟩

theorem rnd (x : Nibble) (kk : Byte) : Statement (.rnd x kk) :=
  ⟨(accepts_F000 0xC#4 (by decide) _).mpr (fields_txkk _ x kk).1, row_mem _⟩

theorem drw (x y n : Nibble) : Statement (.drw x y n) :=
  ⟨(accepts_F000 0xD#4 (by decide) _).mpr (fields_txyn _ x y n).1, row_mem _⟩

theorem skp (x : Nibble) : Statement (.skp x) :=
  have h := fields_txkk 0xE#4 x 0x9E#8
  ⟨(accepts_F0FF 0xE#4 0x9E#8 (by decide) _).mpr ⟨h.1, h.2.2⟩, row_mem _⟩

theorem sknp (x : Nibble) : Statement (.sknp x) :=
  have h := fields_txkk 0xE#4 x 0xA1#8
  ⟨(accepts_F0FF 0xE#4 0xA1#8 (by decide) _).mpr ⟨h.1, h.2.2⟩, row_mem _⟩

theorem ldVxDt (x : Nibble) : Statement (.ldVxDt x) :=
  have h := fields_txkk 0xF#4 x 0x07#8
  ⟨(accepts_F0FF 0xF#4 0x07#8 (by decide) _).mpr ⟨h.1, h.2.2⟩, row_mem _⟩

theorem ldVxK (x : Nibble) : Statement (.ldVxK x) :=
  have h := fields_txkk 0xF#4 x 0x0A#8
  ⟨(accepts_F0FF 0xF#4 0x0A#8 (by decide) _).mpr ⟨h.1, h.2.2⟩, row_mem _⟩

theorem ldDtVx (x : Nibble) : Statement (.ldDtVx x) :=
  have h := fields_txkk 0xF#4 x 0x15#8
  ⟨(accepts_F0FF 0xF#4 0x15#8 (by decide) _).mpr ⟨h.1, h.2.2⟩, row_mem _⟩

theorem ldStVx (x : Nibble) : Statement (.ldStVx x) :=
  have h := fields_txkk 0xF#4 x 0x18#8
  ⟨(accepts_F0FF 0xF#4 0x18#8 (by decide) _).mpr ⟨h.1, h.2.2⟩, row_mem _⟩

theorem addI (x : Nibble) : Statement (.addI x) :=
  have h := fields_txkk 0xF#4 x 0x1E#8
  ⟨(accepts_F0FF 0xF#4 0x1E#8 (by decide) _).mpr ⟨h.1, h.2.2⟩, row_mem _⟩

theorem ldF (x : Nibble) : Statement (.ldF x) :=
  have h := fields_txkk 0xF#4 x 0x29#8
  ⟨(accepts_F0FF 0xF#4 0x29#8 (by decide) _).mpr ⟨h.1, h.2.2⟩, row_mem _⟩

theorem ldB (x : Nibble) : Statement (.ldB x) :=
  have h := fields_txkk 0xF#4 x 0x33#8
  ⟨(accepts_F0FF 0xF#4 0x33#8 (by decide) _).mpr ⟨h.1, h.2.2⟩, row_mem _⟩

theorem ldMemVx (x : Nibble) : Statement (.ldMemVx x) :=
  have h := fields_txkk 0xF#4 x 0x55#8
  ⟨(accepts_F0FF 0xF#4 0x55#8 (by decide) _).mpr ⟨h.1, h.2.2⟩, row_mem _⟩

theorem ldVxMem (x : Nibble) : Statement (.ldVxMem x) :=
  have h := fields_txkk 0xF#4 x 0x65#8
  ⟨(accepts_F0FF 0xF#4 0x65#8 (by decide) _).mpr ⟨h.1, h.2.2⟩, row_mem _⟩

end Sys2Proof.Laws.EncodesInRow
end

