-- ==== Sys2Proof/Laws/Sprite.lean ====
section
/-!
SUPPORT. What drawing a sprite does: `drawRows` toggles a list of points no two of which are the same cell (40_display.md
R82), so a cell is toggled iff some point of the sprite falls on it, and `VF` is 1 iff some such cell was set.
-/

namespace Sys2Proof.Machine

open Sys2Proof.Safety

/-- Two points are the same cell of the display (R177). -/
def sameCell (p q : Nat × Nat) : Prop := p.1 % 64 = q.1 % 64 ∧ p.2 % 32 = q.2 % 32

/-- Toggle the points of a list in order, gathering erasures. -/
def toggleAll (ps : List (Nat × Nat)) (d : Framebuffer × Bool) : Framebuffer × Bool :=
  ps.foldl (fun e p => ((setPixel e.1 p.1 p.2).1, e.2 || (setPixel e.1 p.1 p.2).2)) d

/-- The points of the columns `cs` whose bit is set. -/
def columnPoints (x y : Nat) (row : Byte) (cs : List Nat) : List (Nat × Nat) :=
  (cs.filter (fun c => row.getLsbD (7 - c))).map (fun c => (x + c, y))

/-- The points of a sprite. -/
def spritePoints (x : Nat) : Nat → List Byte → List (Nat × Nat)
  | _, [] => []
  | y, row :: rows => columnPoints x y row [0, 1, 2, 3, 4, 5, 6, 7] ++ spritePoints x (y + 1) rows

theorem drawColumns_eq_toggleAll (x y : Nat) (row : Byte) (cs : List Nat) (d : Framebuffer × Bool) :
    drawColumns x y row cs d = toggleAll (columnPoints x y row cs) d := by
  induction cs generalizing d with
  | nil => rfl
  | cons c cs ih =>
    simp only [drawColumns, columnPoints, List.filter_cons]
    split
    · rw [ih]; rfl
    · rw [ih]; rfl

theorem drawRows_eq_toggleAll (x y : Nat) (rows : List Byte) (d : Framebuffer × Bool) :
    drawRows x y rows d = toggleAll (spritePoints x y rows) d := by
  induction rows generalizing y d with
  | nil => rfl
  | cons row rows ih =>
    simp only [drawRows, spritePoints, ih, drawColumns_eq_toggleAll]
    simp only [toggleAll, List.foldl_append]

theorem mem_columnPoints {x y : Nat} {row : Byte} {p : Nat × Nat} :
    p ∈ columnPoints x y row [0, 1, 2, 3, 4, 5, 6, 7] ↔ ∃ c < 8, row.getLsbD (7 - c) = true ∧ p = (x + c, y) := by
  have hr : ([0, 1, 2, 3, 4, 5, 6, 7] : List Nat) = List.range 8 := by decide
  simp only [columnPoints, hr, List.mem_map, List.mem_filter, List.mem_range]
  constructor
  · rintro ⟨c, ⟨h1, h2⟩, h3⟩; exact ⟨c, h1, h2, h3.symm⟩
  · rintro ⟨c, h1, h2, h3⟩; exact ⟨c, ⟨h1, h2⟩, h3.symm⟩

theorem mem_spritePoints {x y : Nat} {rows : List Byte} {p : Nat × Nat} :
    p ∈ spritePoints x y rows ↔
      ∃ r, ∃ h : r < rows.length, ∃ c < 8, (rows[r]'h).getLsbD (7 - c) = true ∧ p = (x + c, y + r) := by
  induction rows generalizing y with
  | nil => simp [spritePoints]
  | cons row rows ih =>
    simp only [spritePoints, List.mem_append, mem_columnPoints, ih]
    constructor
    · rintro (⟨c, h1, h2, h3⟩ | ⟨r, hr, c, h1, h2, h3⟩)
      · exact ⟨0, by simp, c, h1, by simpa using h2, by simpa using h3⟩
      · exact ⟨r + 1, by simpa using hr, c, h1, by simpa using h2, by rw [h3]; simp; omega⟩
    · rintro ⟨r, hr, c, h1, h2, h3⟩
      cases r with
      | zero => exact .inl ⟨c, h1, by simpa using h2, by simpa using h3⟩
      | succ r => exact .inr ⟨r, by simpa using hr, c, h1, by simpa using h2, by rw [h3]; simp; omega⟩

theorem columnPoints_distinct (x y : Nat) (row : Byte) :
    (columnPoints x y row [0, 1, 2, 3, 4, 5, 6, 7]).Pairwise (fun p q => ¬ sameCell p q) := by
  have hr : ([0, 1, 2, 3, 4, 5, 6, 7] : List Nat) = List.range 8 := by decide
  rw [columnPoints, hr, List.pairwise_map]
  refine List.Pairwise.filter _ ?_
  refine (List.pairwise_lt_range (n := 8)).imp_of_mem ?_
  intro a b ha hb hab h
  simp only [List.mem_range, sameCell] at ha hb h
  omega

/-- No two points of a sprite of at most 32 rows are the same cell (R82). -/
theorem spritePoints_distinct (x y : Nat) (rows : List Byte) (h : rows.length ≤ 32) :
    (spritePoints x y rows).Pairwise (fun p q => ¬ sameCell p q) := by
  induction rows generalizing y with
  | nil => exact List.Pairwise.nil
  | cons row rows ih =>
    simp only [List.length_cons] at h
    simp only [spritePoints, List.pairwise_append]
    refine ⟨columnPoints_distinct x y row, ih (y + 1) (by omega), ?_⟩
    intro p hp q hq hs
    obtain ⟨c, _, _, rfl⟩ := mem_columnPoints.mp hp
    obtain ⟨r, hr, c', _, _, rfl⟩ := mem_spritePoints.mp hq
    simp only [sameCell] at hs
    omega

/-- Toggling distinct cells toggles exactly them, and an erasure is a cell that was set. -/
theorem toggleAll_spec (ps : List (Nat × Nat)) (d : Framebuffer × Bool)
    (hd : ps.Pairwise (fun p q => ¬ sameCell p q)) :
    (∀ cx cy, (pixelAt (toggleAll ps d).1 cx cy = !pixelAt d.1 cx cy ↔ ∃ p ∈ ps, sameCell p (cx, cy)) ∧
      (pixelAt (toggleAll ps d).1 cx cy = pixelAt d.1 cx cy ↔ ¬ ∃ p ∈ ps, sameCell p (cx, cy))) ∧
    ((toggleAll ps d).2 = true ↔ d.2 = true ∨ ∃ p ∈ ps, pixelAt d.1 p.1 p.2 = true) := by
  induction ps generalizing d with
  | nil => simp [toggleAll]
  | cons p ps ih =>
    rw [List.pairwise_cons] at hd
    obtain ⟨h1, h2⟩ := ih ((setPixel d.1 p.1 p.2).1, d.2 || (setPixel d.1 p.1 p.2).2) hd.2
    have hstep : toggleAll (p :: ps) d =
        toggleAll ps ((setPixel d.1 p.1 p.2).1, d.2 || (setPixel d.1 p.1 p.2).2) := rfl
    rw [hstep]
    refine ⟨fun cx cy => ?_, ?_⟩
    · obtain ⟨h3, h4⟩ := h1 cx cy
      simp only [pixelAt_setPixel] at h3 h4
      by_cases hp : cx % 64 = p.1 % 64 ∧ cy % 32 = p.2 % 32
      · have hno : ¬ ∃ q ∈ ps, sameCell q (cx, cy) := by
          rintro ⟨q, hq, hs⟩
          exact hd.1 q hq ⟨hp.1.symm.trans hs.1.symm, hp.2.symm.trans hs.2.symm⟩
        have hyes : ∃ q ∈ p :: ps, sameCell q (cx, cy) := ⟨p, by simp, hp.1.symm, hp.2.symm⟩
        have hpix : pixelAt d.1 p.1 p.2 = pixelAt d.1 cx cy := by simp [pixelAt, hp.1, hp.2]
        rw [if_pos hp] at h4
        have h5 := h4.mpr hno
        rw [h5, hpix]
        exact ⟨iff_of_true rfl hyes, iff_of_false (by cases pixelAt d.1 cx cy <;> decide) (fun h => h hyes)⟩
      · have hiff : (∃ q ∈ p :: ps, sameCell q (cx, cy)) ↔ ∃ q ∈ ps, sameCell q (cx, cy) := by
          constructor
          · rintro ⟨q, hq, hs⟩
            rcases List.mem_cons.mp hq with rfl | hq
            · exact absurd ⟨hs.1.symm, hs.2.symm⟩ hp
            · exact ⟨q, hq, hs⟩
          · rintro ⟨q, hq, hs⟩; exact ⟨q, List.mem_cons_of_mem _ hq, hs⟩
        rw [if_neg hp] at h3 h4
        rw [hiff]
        exact ⟨h3, h4⟩
    · have hkeep : ∀ q ∈ ps, pixelAt (setPixel d.1 p.1 p.2).1 q.1 q.2 = pixelAt d.1 q.1 q.2 := by
        intro q hq
        rw [pixelAt_setPixel, if_neg]
        rintro ⟨e1, e2⟩
        exact hd.1 q hq ⟨e1.symm, e2.symm⟩
      rw [h2]
      simp only [setPixel_erased, Bool.or_eq_true, List.mem_cons, exists_eq_or_imp]
      constructor
      · rintro ((h | h) | ⟨q, hq, h⟩)
        · exact .inl h
        · exact .inr (.inl h)
        · exact .inr (.inr ⟨q, hq, (hkeep q hq) ▸ h⟩)
      · rintro (h | h | ⟨q, hq, h⟩)
        · exact .inl (.inl h)
        · exact .inl (.inr h)
        · exact .inr ⟨q, hq, (hkeep q hq).symm ▸ h⟩

/-- What `drawRows` does to the framebuffer and to the collision flag. -/
theorem drawRows_spec (x y : Nat) (rows : List Byte) (fb : Framebuffer) (h : rows.length ≤ 32) :
    (∀ cx cy, pixelAt (drawRows x y rows (fb, false)).1 cx cy = !pixelAt fb cx cy ↔
      ∃ p ∈ spritePoints x y rows, sameCell p (cx, cy)) ∧
    ((drawRows x y rows (fb, false)).2 = true ↔ ∃ p ∈ spritePoints x y rows, pixelAt fb p.1 p.2 = true) := by
  rw [drawRows_eq_toggleAll]
  obtain ⟨h1, h2⟩ := toggleAll_spec (spritePoints x y rows) (fb, false) (spritePoints_distinct x y rows h)
  exact ⟨fun cx cy => (h1 cx cy).1, by simpa using h2⟩

end Sys2Proof.Machine
end

