-- ==== Sys2Proof/Laws/Step.lean ====
section
/-!
SUPPORT. Everything a step and the instructions that can fault can do, said once (30_encoding.md R62; 60_exceptions.md
R150).
-/

namespace Sys2Proof.Machine

open Sys2Proof.Safety

/-- A step does nothing, records a fault of the fetch, records an unknown opcode, or executes the decoded instruction. -/
theorem step_cases (s : State) :
    (halted s = true ∧ step s = .next s) ∨
    (halted s = false ∧ s.params.memOor = .fault ∧ 4096 ≤ s.pc.toNat + 1 ∧
      step s = .next (raise s (.memoryRange (max s.pc.toNat 4096)))) ∨
    (halted s = false ∧ ∃ op e, fetch16 s.params s.mem s.pc.toNat = .ok op ∧ decode op = .error e ∧
      step s = .next (raise (advancePc s) (.unknownOpcode op s.pc))) ∨
    (halted s = false ∧ ∃ op i, fetch16 s.params s.mem s.pc.toNat = .ok op ∧ decode op = .ok i ∧
      step s = exec i (advancePc s)) := by
  unfold step fetchDecode
  cases hh : halted s with
  | true => exact .inl ⟨rfl, rfl⟩
  | false =>
    simp only [Bool.false_eq_true, if_false]
    rcases fetch16_cases s.params s.mem s.pc.toNat with ⟨_, h2⟩ | ⟨h1, h2, h3⟩
    · rw [h2]
      generalize wordOfBytes (s.mem.read (cellAt s.pc.toNat)) (s.mem.read (cellAt (s.pc.toNat + 1))) = op
      cases hd : decode op with
      | ok i => exact .inr (.inr (.inr ⟨trivial, op, i, rfl, hd, by simp [hd]⟩))
      | error e => exact .inr (.inr (.inl ⟨trivial, op, e, rfl, hd, by simp [hd]⟩))
    · exact .inr (.inl ⟨trivial, h1, h2, by rw [h3]⟩)

/-! ### The instructions that can fault -/

theorem exec_ret_cases (s : State) :
    (s.stack = [] ∧ exec .ret s = .next (raise s .stackUnderflow)) ∨
    (∃ rest w, s.stack = rest ++ [w] ∧ exec .ret s = .next { s with stack := rest, pc := w }) := by
  simp only [exec, execRet]
  rcases pop_cases s with ⟨h1, h2⟩ | ⟨rest, w, h1, h2⟩ <;> rw [h2]
  · exact .inl ⟨h1, rfl⟩
  · exact .inr ⟨rest, w, h1, rfl⟩

theorem exec_call_cases (s : State) (nnn : Addr12) :
    (s.stack.length = s.params.stackDepth ∧ exec (.call nnn) s = .next (raise s (.stackOverflow s.pc))) ∨
    (s.stack.length ≠ s.params.stackDepth ∧
      exec (.call nnn) s = .next { s with stack := s.stack ++ [s.pc], pc := zextAddr nnn }) := by
  simp only [exec, execCall]
  rcases push_cases s s.pc with ⟨h1, h2⟩ | ⟨h1, h2⟩ <;> rw [h2]
  · exact .inl ⟨h1, rfl⟩
  · exact .inr ⟨h1, rfl⟩

theorem exec_skp_cases (s : State) (x : Nibble) :
    ((readV s x).toNat ≤ 15 ∧ exec (.skp x) s =
      .next (skipIf { s with keyDraws := s.keyDraws + 1 }
        (Config.keyPressed s.keyDraws ((readV s x).setWidth 4)))) ∨
    (15 < (readV s x).toNat ∧ s.params.keyOor = .notPressed ∧ exec (.skp x) s = .next s) ∨
    (15 < (readV s x).toNat ∧ s.params.keyOor = .fault ∧ exec (.skp x) s = .next (raise s (.keyRange (readV s x)))) := by
  simp only [exec, execSkp]
  rcases keyIsDown_cases s (readV s x) with ⟨h1, h2⟩ | ⟨h1, h3, h2⟩ | ⟨h1, h3, h2⟩ <;> rw [h2]
  · exact .inl ⟨h1, rfl⟩
  · exact .inr (.inl ⟨h1, h3, rfl⟩)
  · exact .inr (.inr ⟨h1, h3, rfl⟩)

theorem exec_sknp_cases (s : State) (x : Nibble) :
    ((readV s x).toNat ≤ 15 ∧ exec (.sknp x) s =
      .next (skipIf { s with keyDraws := s.keyDraws + 1 }
        (!Config.keyPressed s.keyDraws ((readV s x).setWidth 4)))) ∨
    (15 < (readV s x).toNat ∧ s.params.keyOor = .notPressed ∧ exec (.sknp x) s = .next (advancePc s)) ∨
    (15 < (readV s x).toNat ∧ s.params.keyOor = .fault ∧ exec (.sknp x) s = .next (raise s (.keyRange (readV s x)))) := by
  simp only [exec, execSknp]
  rcases keyIsDown_cases s (readV s x) with ⟨h1, h2⟩ | ⟨h1, h3, h2⟩ | ⟨h1, h3, h2⟩ <;> rw [h2]
  · exact .inl ⟨h1, rfl⟩
  · exact .inr (.inl ⟨h1, h3, rfl⟩)
  · exact .inr (.inr ⟨h1, h3, rfl⟩)

/-- Forming the `n` cells from `I`: they are `cellsFromI`, or an address leaves memory. -/
theorem cellsAtI_cases (s : State) (n : Nat) :
    (reachesAtI s n ∧ cellsAtI s n = .ok (cellsFromI s n)) ∨
    (s.params.memOor = .fault ∧ 0 < n ∧ 4096 < s.i.toNat + n ∧
      cellsAtI s n = .error (.memoryRange (max s.i.toNat 4096))) :=
  cellsOf_cases s.params s.i.toNat n

theorem registersUpTo_length (v : Vector Byte 16) (x : Nibble) : (registersUpTo v x).length = x.toNat + 1 := by
  have := x.isLt
  simp [registersUpTo]; omega

theorem exec_drw_cases (s : State) (x y n : Nibble) :
    (reachesAtI s n.toNat ∧ exec (.drw x y n) s = .next (drawSprite s x y (cellsFromI s n.toNat))) ∨
    (s.params.memOor = .fault ∧ 0 < n.toNat ∧ 4096 < s.i.toNat + n.toNat ∧
      exec (.drw x y n) s = .next (raise s (.memoryRange (max s.i.toNat 4096)))) := by
  simp only [exec, execDrw]
  rcases cellsAtI_cases s n.toNat with ⟨h1, h2⟩ | ⟨h1, h2, h3, h4⟩
  · rw [h2]; exact .inl ⟨h1, rfl⟩
  · rw [h4]; exact .inr ⟨h1, h2, h3, rfl⟩

theorem exec_ldB_cases (s : State) (x : Nibble) :
    (reachesAtI s 3 ∧ exec (.ldB x) s =
      .next { s with mem := writeCells s.mem (cellsFromI s 3) (decimalDigits (readV s x)) }) ∨
    (s.params.memOor = .fault ∧ 4096 < s.i.toNat + 3 ∧
      exec (.ldB x) s = .next (raise s (.memoryRange (max s.i.toNat 4096)))) := by
  simp only [exec, execLdB, storeAtI]
  rw [show (decimalDigits (readV s x)).length = 3 from rfl]
  rcases cellsAtI_cases s 3 with ⟨h1, h2⟩ | ⟨h1, _, h3, h4⟩
  · rw [h2]; exact .inl ⟨h1, rfl⟩
  · rw [h4]; exact .inr ⟨h1, h3, rfl⟩

theorem exec_ldMemVx_cases (s : State) (x : Nibble) :
    (reachesAtI s (x.toNat + 1) ∧ exec (.ldMemVx x) s =
      .next { s with mem := writeCells s.mem (cellsFromI s (x.toNat + 1)) (registersUpTo s.v x) }) ∨
    (s.params.memOor = .fault ∧ 4096 < s.i.toNat + (x.toNat + 1) ∧
      exec (.ldMemVx x) s = .next (raise s (.memoryRange (max s.i.toNat 4096)))) := by
  simp only [exec, execLdMemVx, storeAtI, registersUpTo_length]
  rcases cellsAtI_cases s (x.toNat + 1) with ⟨h1, h2⟩ | ⟨h1, _, h3, h4⟩
  · rw [h2]; exact .inl ⟨h1, rfl⟩
  · rw [h4]; exact .inr ⟨h1, h3, rfl⟩

theorem exec_ldVxMem_cases (s : State) (x : Nibble) :
    (reachesAtI s (x.toNat + 1) ∧ exec (.ldVxMem x) s =
      .next { s with v := loadRegisters 0 (readCells s.mem (cellsFromI s (x.toNat + 1))) s.v }) ∨
    (s.params.memOor = .fault ∧ 4096 < s.i.toNat + (x.toNat + 1) ∧
      exec (.ldVxMem x) s = .next (raise s (.memoryRange (max s.i.toNat 4096)))) := by
  simp only [exec, execLdVxMem, loadAtI]
  rcases cellsAtI_cases s (x.toNat + 1) with ⟨h1, h2⟩ | ⟨h1, _, h3, h4⟩
  · rw [h2]; exact .inl ⟨h1, rfl⟩
  · rw [h4]; exact .inr ⟨h1, h3, rfl⟩

end Sys2Proof.Machine
end

