-- ==== Sys2Proof/Tests/Slice0.lean ====
section
/-!
SUPPORT. Tests of the model, each against a vector of 95_test_vectors.md (named by its id) or a worked example of an
instruction's rule. One step, one or two fields.
-/

namespace Sys2Proof.Tests

open Sys2Proof.Machine Sys2Proof.Safety

/-! ### Words: well-formed and ill-formed, decoding bit by bit (R63, R68, R69) -/

/-- One ill-formed word for each check: family 0, 5, 8, 9, E and F (DEC1-DEC10). -/
theorem test_ill_formed_words :
    ([0x0000, 0x0123, 0x00E1, 0x5121, 0x9AB3, 0x8128, 0x812F, 0xE19F, 0xF100, 0xFFFF] : List Word).all
      (fun op => !wordWellFormed op) = true := by decide

theorem test_ill_formed_words_refused :
    ([0x0000, 0x0123, 0x00E1, 0x5121, 0x9AB3, 0x8128, 0x812F, 0xE19F, 0xF100, 0xFFFF] : List Nat).all
      (fun w => decodeTableWord 16 w == none) = true := by decide

/-- A well-formed word of each family. -/
theorem test_well_formed_words :
    ([0x00E0, 0x1ABC, 0x5AB0, 0x8AB6, 0x9AB0, 0xDAB3, 0xE29E, 0xF265] : List Word).all wordWellFormed = true := by
  decide

/-- A single byte is no instruction (R70). -/
theorem test_decode_truncated : (decodeBytes [0x00] matches .error .truncated) = true := by decide

theorem test_decode_display :
    [0b0000000011100000, 0b1101000100101111].map (decodeTableWord 16) = [some .cls, some (.drw 1 2 15)] := by decide

theorem test_decode_control :
    [0b0000000011101110, 0b0001001000110100, 0b0010001100000000, 0b1011111111111111].map (decodeTableWord 16) =
      [some .ret, some (.jp 0x234), some (.call 0x300), some (.jpV0 0xFFF)] := by decide

theorem test_decode_skip :
    [0b0011001100010010, 0b0100001100010010, 0b0101000100100000, 0b1001000100100000, 0b1110010010011110,
      0b1110010010100001].map (decodeTableWord 16) =
      [some (.seImm 3 0x12), some (.sneImm 3 0x12), some (.seReg 1 2), some (.sneReg 1 2), some (.skp 4),
        some (.sknp 4)] := by decide

theorem test_decode_alu_low :
    [0b0110000000001010, 0b0111001000100000, 0b1000101010110000, 0b1000101010110001, 0b1000101010110010,
      0b1000101010110011].map (decodeTableWord 16) =
      [some (.ldImm 0 0x0A), some (.addImm 2 0x20), some (.ldReg 10 11), some (.orReg 10 11), some (.andReg 10 11),
        some (.xorReg 10 11)] := by decide

theorem test_decode_alu_high :
    [0b1000101010110100, 0b1000101010110101, 0b1000101010110110, 0b1000101010110111, 0b1000101010111110,
      0b1100001100001111].map (decodeTableWord 16) =
      [some (.addReg 10 11), some (.subReg 10 11), some (.shr 10 11), some (.subnReg 10 11), some (.shl 10 11),
        some (.rnd 3 0x0F)] := by decide

theorem test_decode_index :
    [0b1010001011110000, 0b1111001000011110, 0b1111000100101001, 0b1111010100110011, 0b1111001001010101,
      0b1111001001100101].map (decodeTableWord 16) =
      [some (.ldI 0x2F0), some (.addI 2), some (.ldF 1), some (.ldB 5), some (.ldMemVx 2), some (.ldVxMem 2)] := by
  decide

theorem test_decode_timer :
    [0b1111001100000111, 0b1111001000001010, 0b1111000000010101, 0b1111000000011000].map (decodeTableWord 16) =
      [some (.ldVxDt 3), some (.ldVxK 2), some (.ldDtVx 0), some (.ldStVx 0)] := by decide

/-- The encoder writes the words of the worked examples. -/
theorem test_encode_examples :
    [Instr.cls, .call 0x300, .seImm 3 0x12, .addReg 0 1, .drw 1 2 5, .skp 4, .ldMemVx 2].map encode =
      [0x00E0, 0x2300, 0x3312, 0x8014, 0xD125, 0xE49E, 0xF255] := by decide

theorem test_encodeBytes_big_endian : encodeBytes (.call 0x3AB) = [0x23, 0xAB] := by decide

/-! ### Running one step -/

/-- The next state of one step of the word `w` placed at the `PC` of `s`. -/
def ran (s : State) (w : Nat) : Option State :=
  match step (s.withFetchWord 16 w) with
  | .next t => some t
  | _ => none

/-- `State.reset` with some registers set. -/
def withRegs (rs : List (Nibble × Byte)) : State :=
  rs.foldl (fun s p => writeV s p.1 p.2) State.reset

/-- A run of bytes in memory from an address. -/
def withBytes (s : State) (a : Nat) (bs : List Byte) : State := { s with mem := writeFrom s.mem a bs }

/-- `State.reset` under `MEM_OOR = fault` and `KEY_OOR = fault`. -/
def strict : State := { State.reset with params := { Config.defaults with memOor := .fault, keyOor := .fault } }

/-- The key parameters of a state changed to `KEY_OOR = fault`. -/
def strictKeys (s : State) : State := { s with params := { s.params with keyOor := .fault } }

/-- The bytes of memory at a run of addresses. -/
def bytesAt (t : State) (as : List (Fin 4096)) : List Byte := readCells t.mem as

/-- The set pixels among some coordinates. -/
def litAmong (t : State) (ps : List (Nat × Nat)) : List (Nat × Nat) := ps.filter (fun p => pixelAt t.fb p.1 p.2)

/-! ### Reset and fetch -/

theorem test_reset_status : statusOf State.reset = .running := by decide

theorem test_reset_font_digit_A : bytesAt State.reset [0x032, 0x033, 0x034, 0x035, 0x036] =
    [0xF0, 0x90, 0xF0, 0x90, 0x90] := by decide

theorem test_resetWith_default : resetWith Config.defaults ResetInit.default = State.reset := by decide

/-- CYC6: the word at 0xFFF takes its low byte from 0x000. -/
theorem test_cyc6_fetch_wraps : (ran { State.reset with pc := 0xFFF } 0x12F0).map (fun t => t.pc) = some 0x2F0 := by
  decide

/-- CYC7: the same under `MEM_OOR = fault` leaves `PC` and records the address. -/
theorem test_cyc7_fetch_faults :
    (ran { strict with pc := 0xFFF } 0x12F0).map (fun t => (t.pc, t.fault)) =
      some (0xFFF, some (.memoryRange 0x1000)) := by decide

/-- DEC1. -/
theorem test_dec1_unknown :
    (ran State.reset 0x0000).map (fun t => (t.pc, t.fault)) = some (0x202, some (.unknownOpcode 0x0000 0x200)) := by
  decide

/-- DEC4. -/
theorem test_dec4_unknown :
    (ran State.reset 0x5121).map (fun t => (t.pc, t.fault.map Fault.code)) = some (0x202, some 1) := by decide

/-! ### Display -/

theorem test_dsp1_cls :
    (ran { State.reset with fb := setPixelTo clearDisplay 1 1 true } 0x00E0).map
      (fun t => (decide (t.fb = clearDisplay), t.pc)) = some (true, 0x202) := by decide

/-- Memory of the T-DSP vectors. -/
def drawState (rs : List (Nibble × Byte)) : State :=
  { withBytes (withRegs rs) 0x300 [0xFF, 0x81] with i := 0x300 }

/-- DSP4: x wraps. -/
theorem test_dsp4_drw_wraps_x :
    (ran (drawState [(1, 62), (2, 0)]) 0xD121).map
      (fun t => (litAmong t [(61, 0), (62, 0), (63, 0), (0, 0), (5, 0), (6, 0), (62, 1)], readV t regF)) =
      some ([(62, 0), (63, 0), (0, 0), (5, 0)], 0) := by decide

/-- DSP8: one pixel erased, seven set. -/
theorem test_dsp8_drw_collides :
    (ran { drawState [(1, 0), (2, 0)] with fb := setPixelTo clearDisplay 7 0 true } 0xD121).map
      (fun t => (litAmong t [(0, 0), (1, 0), (6, 0), (7, 0), (8, 0)], readV t regF)) =
      some ([(0, 0), (1, 0), (6, 0)], 1) := by decide

/-! ### Control transfer -/

theorem test_ctl4_call :
    (ran { State.reset with stack := [0x40A, 0x50C] } 0x2300).map (fun t => (t.stack, t.pc)) =
      some ([0x40A, 0x50C, 0x202], 0x300) := by decide

theorem test_ctl12_call_overflow :
    (ran { State.reset with pc := 0x300, stack := [0x210, 0x202], params := { Config.defaults with stackDepth := 2 } }
      0x2400).map (fun t => (t.fault, t.pc, t.stack)) =
      some (some (.stackOverflow 0x302), 0x302, [0x210, 0x202]) := by decide

theorem test_ctl5_ret :
    (ran { State.reset with pc := 0x300, stack := [0x202] } 0x00EE).map (fun t => (t.stack, t.pc)) =
      some ([], 0x202) := by decide

theorem test_ctl6_ret_underflow :
    (ran { State.reset with pc := 0x300 } 0x00EE).map (fun t => (t.fault, t.pc)) =
      some (some .stackUnderflow, 0x302) := by decide

theorem test_ctl3_jp_odd : (ran State.reset 0x1201).map (fun t => t.pc) = some 0x201 := by decide

theorem test_ctl9_jpV0_above : (ran (withRegs [(0, 0xFF)]) 0xBFFF).map (fun t => t.pc) = some 0x10FE := by decide

theorem test_ctl10_jpV0_uses_V0 : (ran (withRegs [(0, 1), (3, 0x50)]) 0xB300).map (fun t => t.pc) = some 0x301 := by
  decide

/-! ### Skips -/

theorem test_skp1_se : (ran (withRegs [(3, 0x42)]) 0x3342).map (fun t => t.pc) = some 0x204 := by decide
theorem test_skp2_se_not : (ran (withRegs [(3, 0x41)]) 0x3342).map (fun t => t.pc) = some 0x202 := by decide
theorem test_skp3_sne_not : (ran (withRegs [(3, 0x42)]) 0x4342).map (fun t => t.pc) = some 0x202 := by decide
theorem test_skp4_sne : (ran (withRegs []) 0x4342).map (fun t => t.pc) = some 0x204 := by decide
theorem test_skp5_seReg : (ran (withRegs [(1, 7), (2, 7)]) 0x5120).map (fun t => t.pc) = some 0x204 := by decide
theorem test_skp6_seReg_not : (ran (withRegs [(1, 7), (2, 8)]) 0x5120).map (fun t => t.pc) = some 0x202 := by decide
theorem test_skp7_sneReg : (ran (withRegs [(1, 7), (2, 8)]) 0x9120).map (fun t => t.pc) = some 0x204 := by decide
theorem test_skp9_sneReg_not : (ran (withRegs [(1, 7)]) 0x9110).map (fun t => t.pc) = some 0x202 := by decide

/-- SKP11 and SKP12: the answer of the input device decides, whichever it is. -/
theorem test_skp11_skp :
    exec (.skp 4) (withRegs [(4, 5)]) =
      .next (skipIf { withRegs [(4, 5)] with keyDraws := 1 } (Config.keyPressed 0 5)) := by rfl

/-- SKP13 and SKP14. -/
theorem test_skp13_sknp :
    exec (.sknp 4) (withRegs [(4, 5)]) =
      .next (skipIf { withRegs [(4, 5)] with keyDraws := 1 } (!Config.keyPressed 0 5)) := by rfl

/-- SKP17. -/
theorem test_skp17_key_range :
    (ran (strictKeys (withRegs [(4, 0x10)])) 0xE49E).map (fun t => (t.fault, t.pc)) =
      some (some (.keyRange 16), 0x202) := by decide

theorem test_skp15_skp_high_key : (ran (withRegs [(4, 0x10)]) 0xE49E).map (fun t => t.pc) = some 0x202 := by decide
theorem test_skp16_sknp_high_key : (ran (withRegs [(4, 0x10)]) 0xE4A1).map (fun t => t.pc) = some 0x204 := by decide

/-! ### Register arithmetic: `V1`, `V2` and `VF` = 0x55 before -/

/-- `V1` and `VF` after the word. -/
def alu (w : Nat) (v1 v2 : Byte) : Option (Byte × Byte) :=
  (ran (withRegs [(1, v1), (2, v2), (15, 0x55)]) w).map (fun t => (readV t 1, readV t regF))

/-- The final `VF` with x = F. -/
def aluF (w : Nat) (vf v2 : Byte) : Option Byte :=
  (ran (withRegs [(2, v2), (15, vf)]) w).map (fun t => readV t regF)

theorem test_alu1_ldImm : alu 0x6123 0 0 = some (0x23, 0x55) := by decide
theorem test_alu2_addImm_wraps : alu 0x71FF 0x05 0 = some (0x04, 0x55) := by decide
theorem test_alu35_addImm_F : aluF 0x7F01 0xFF 0 = some 0 := by decide
theorem test_alu4_ldReg : alu 0x8120 0x11 0x99 = some (0x99, 0x55) := by decide
theorem test_alu5_or : alu 0x8121 0xF0 0x0F = some (0xFF, 0x55) := by decide
theorem test_alu6_and : alu 0x8122 0xF0 0x3C = some (0x30, 0x55) := by decide
theorem test_alu7_xor : alu 0x8123 0xFF 0x0F = some (0xF0, 0x55) := by decide
theorem test_alu9_add_carry : alu 0x8124 0xFF 0x01 = some (0x00, 0x01) := by decide
theorem test_alu28_add_F : aluF 0x8F24 0xFF 0x01 = some 0x00 := by decide
theorem test_alu14_sub_equal : alu 0x8125 0x42 0x42 = some (0x00, 0x00) := by decide
theorem test_alu13_sub_borrow : alu 0x8125 0x10 0x30 = some (0xE0, 0x00) := by decide
theorem test_alu16_shr : alu 0x8126 0x05 0xAA = some (0x02, 0x01) := by decide
theorem test_alu32_shr_F : aluF 0x8F26 0x03 0 = some 0x01 := by decide
theorem test_alu19_subn : alu 0x8127 0x10 0x30 = some (0x20, 0x01) := by decide
theorem test_alu33_subn_F : aluF 0x8F27 0x03 0x05 = some 0x02 := by decide
theorem test_alu22_shl : alu 0x812E 0x81 0 = some (0x02, 0x01) := by decide
theorem test_alu34_shl_F : aluF 0x8F2E 0x81 0 = some 0x02 := by decide

/-- ALU25: the mask bounds the free value. -/
theorem test_alu25_rnd :
    (ran State.reset 0xC10F).map (fun t => (readV t 1, t.randomDraws)) = some (Config.randomByte 0 &&& 0x0F, 1) := by
  rfl

/-! ### Index register and memory -/

theorem test_idx1_ldI : (ran State.reset 0xA123).map (fun t => t.i) = some 0x123 := by decide

theorem test_idx3_addI_no_flag :
    (ran { withRegs [(1, 1), (15, 0x55)] with i := 0xFFF } 0xF11E).map (fun t => (t.i, readV t regF)) =
      some (0x1000, 0x55) := by decide

theorem test_idx4_addI_wraps : (ran { withRegs [(1, 2)] with i := 0xFFFF } 0xF11E).map (fun t => t.i) = some 1 := by
  decide

theorem test_idx8_ldF : (ran (withRegs [(1, 0xFF)]) 0xF129).map (fun t => t.i) = some 0x4FB := by decide

theorem test_idx14_ldB_wraps :
    (ran { withRegs [(5, 0x7B)] with i := 0xFFE } 0xF533).map (fun t => bytesAt t [0xFFE, 0xFFF, 0x000]) =
      some [1, 2, 3] := by decide

theorem test_idx15_ldB_faults :
    (ran { strict with i := 0xFFE } 0xF533).map (fun t => (t.fault, t.pc, bytesAt t [0xFFE, 0xFFF])) =
      some (some (.memoryRange 0x1000), 0x202, [0, 0]) := by decide

theorem test_idx16_store :
    (ran { withRegs [(0, 1), (1, 2), (2, 3), (3, 9)] with i := 0x400 } 0xF255).map
      (fun t => (bytesAt t [0x400, 0x401, 0x402, 0x403], t.i)) = some ([1, 2, 3, 0], 0x400) := by decide

theorem test_idx21_store_over_itself :
    (ran { withRegs [(0, 0x12)] with i := 0x200 } 0xF055).map (fun t => bytesAt t [0x200, 0x201]) =
      some [0x12, 0x55] := by decide

theorem test_idx19_load :
    (ran (withBytes { withRegs [(3, 0x77)] with i := 0x400 } 0x400 [1, 2, 3]) 0xF265).map
      (fun t => (t.v.toList.take 5, t.i)) = some ([1, 2, 3, 0x77, 0], 0x400) := by decide

/-! ### Timers, key wait, cycle -/

theorem test_tmr1_read_dt : (ran { State.reset with dt := 0x3C } 0xF307).map (fun t => readV t 3) = some 0x3C := by
  decide
theorem test_tmr2_set_dt : (ran (withRegs [(3, 5)]) 0xF315).map (fun t => t.dt) = some 5 := by decide
theorem test_tmr3_set_st : (ran (withRegs [(3, 5)]) 0xF318).map (fun t => t.st) = some 5 := by decide

theorem test_tmr8_wait :
    (ran State.reset 0xF20A).map (fun t => (t.paused, t.pending, t.pc)) = some (true, some 2, 0x202) := by decide

/-- The state of TMR10: paused on `V2`. -/
def waiting : State := { State.reset with paused := true, pending := some 2, pc := 0x202, dt := 9 }

theorem test_tmr10_key_down :
    (fun t => (readV t 2, t.pending, t.paused)) (keyDown 7 waiting) = (7, none, false) := by decide

/-- TMR14: keys 3 and 5 together, the lowest wins. -/
theorem test_tmr14_lowest_key : readV (keysDown 0b101000 waiting) 2 = 3 := by decide

/-- The core after one cycle. -/
def cycled (s : State) : Option State :=
  match cycle s with
  | .next t => some t
  | _ => none

/-- TMR9: no step, timers frozen. -/
theorem test_tmr9_paused_cycle : (cycled waiting).map (fun t => (t.pc, t.dt)) = some (0x202, 9) := by decide

/-- TMR5: `6101 F118 1204` in one cycle gives no tone. -/
theorem test_tmr5_no_tone :
    (cycled (withBytes State.reset 0x200 [0x61, 0x01, 0xF1, 0x18, 0x12, 0x04])).map (fun t => (t.st, t.audioOn)) =
      some (0, false) := by decide

/-- CYC3: `6105 F115 0000` faults in the third step and skips the timer step. -/
theorem test_cyc3_fault_ends_cycle :
    (cycled (withBytes State.reset 0x200 [0x61, 0x05, 0xF1, 0x15])).map (fun t => (t.fault, t.pc, t.dt)) =
      some (some (.unknownOpcode 0 0x204), 0x206, 5) := by decide

/-! ### Loader and session -/

/-- CYC10: an image of 3585 bytes is refused. -/
theorem test_cyc10_load_too_long (image : List Byte) (h : image.length = 3585) :
    load image State.reset = .refused (.outOfBounds 3585) := by
  simp [load, h, Config.maxImage, Config.memSize, Config.progBase]

/-- CYC11. -/
theorem test_cyc11_load :
    (match load [0x12, 0x00] State.reset with
      | .next t => bytesAt t [0x200, 0x201, 0x202]
      | _ => []) = [0x12, 0, 0] := by decide

theorem test_second_load_refused :
    (perform (.load [0]) { core := State.reset, mayLoad := false } matches .refused .loadOutsideContract) = true := by
  decide

/-! ### Witnesses: a concrete state and operands that meet all hypotheses of each statement with hypotheses -/

/-- `State.reset` with a program at 0x200. -/
def programmed (bs : List Byte) : State := withBytes State.reset 0x200 bs

/-- `strict` with some `I`. -/
def strictAt (i : Word) : State := { strict with i := i }

/-- EncodeOfDecodeIsIdentity, DecodedRowIsTheOnlyMatch. -/
theorem test_witness_decoded_word : decode 0x8AB6 = .ok (.shr 0xA 0xB) := by decide

theorem test_witness_StepRunsDecodedInstruction :
    (programmed [0x63, 0x12]).fault = none ∧ (programmed [0x63, 0x12]).paused = false ∧
    fetch16 (programmed [0x63, 0x12]).params (programmed [0x63, 0x12]).mem (programmed [0x63, 0x12]).pc.toNat =
      .ok 0x6312 ∧ decode 0x6312 = .ok (.ldImm 3 0x12) := by decide

theorem test_witness_UnknownWordRaisesUnknownOpcode :
    State.reset.fault = none ∧ State.reset.paused = false ∧
    fetch16 State.reset.params State.reset.mem State.reset.pc.toNat = .ok 0x0000 ∧ wordWellFormed 0x0000 = false := by
  decide

/-- Both clauses at the last address they admit. -/
theorem test_witness_FetchIsBigEndian :
    Config.defaults.memOor = .wrap ∧ (strict.params.memOor = .fault ∧ 0xFFE + 1 < 4096) := by decide

/-- The fault, and a load that is accepted (the empty image). -/
theorem test_witness_FaultIsSticky :
    (raise State.reset .stackUnderflow).fault = some .stackUnderflow ∧
    load [] (raise State.reset .stackUnderflow) = .next (raise State.reset .stackUnderflow) :=
  ⟨by decide, rfl⟩

theorem test_witness_PausedCoreOnlySignals : waiting.fault = none ∧ waiting.paused = true := by decide

theorem test_witness_CanonicalMemoriesAreDetermined :
    Memory.wf [(0x300, 1)] = true ∧ Memory.wf (Memory.write [] 0x300 1) = true ∧
    (∀ c : Fin 4096, Memory.read [(0x300, 1)] c = (Memory.write [] 0x300 1).read c) :=
  ⟨by decide, by decide, fun _ => rfl⟩

/-- The first address past the end for each form, then the fetch, then a wrapping core. -/
theorem test_witness_MemoryRangeIsPrecise :
    ((strictAt 0xFFF).params.memOor = .fault ∧ 0 < bytesAtI (.drw 0 0 2) ∧
      4096 < (strictAt 0xFFF).i.toNat + bytesAtI (.drw 0 0 2)) ∧
    (0 < bytesAtI (.ldB 0) ∧ 4096 < (strictAt 0xFFE).i.toNat + bytesAtI (.ldB 0)) ∧
    (0 < bytesAtI (.ldMemVx 0) ∧ 4096 < (strictAt 0x1000).i.toNat + bytesAtI (.ldMemVx 0)) ∧
    (0 < bytesAtI (.ldVxMem 15) ∧ 4096 < (strictAt 0xFF1).i.toNat + bytesAtI (.ldVxMem 15)) ∧
    (strict.fault = none ∧ strict.paused = false ∧ 4096 ≤ ({ strict with pc := 0xFFF } : State).pc.toNat + 1) ∧
    (State.reset.params.memOor = .wrap ∧ State.reset.fault = none ∧
      step State.reset = .next { State.reset with pc := 0x202, fault := some (.unknownOpcode 0 0x200) }) := by
  and_intros <;> first | rfl | decide

/-- StoreThenLoadRestoresRegisters, RegistersAreStored, RegistersAreLoaded: the run that ends at the last cell, and a
run that wraps. -/
theorem test_witness_register_runs :
    strict.mem.wf = true ∧ reachesAtI (strictAt 0xFF0) ((15 : Nibble).toNat + 1) ∧
    reachesAtI { State.reset with i := 0xFFFF } ((15 : Nibble).toNat + 1) :=
  ⟨by decide, .inr (.inr (by decide)), .inr (.inl (by decide))⟩

theorem test_witness_StoredBytesAreFetched :
    strict.mem.wf = true ∧ 1 ≤ (1 : Nibble).toNat ∧ reachesAtI (strictAt 0xFFE) ((1 : Nibble).toNat + 1) :=
  ⟨by decide, by decide, .inr (.inr (by decide))⟩

/-- The first address that is too high for two bytes: `StoredBytesAreFetched` shuts it out under `MEM_OOR = fault`. -/
theorem test_witness_reaches_boundary : ¬ reachesAtI (strictAt 0xFFF) ((1 : Nibble).toNat + 1) := by
  rintro (h | h | h) <;> revert h <;> decide

theorem test_witness_DecimalDigitsAreStored : strict.mem.wf = true ∧ reachesAtI (strictAt 0xFFD) 3 :=
  ⟨by decide, .inr (.inr (by decide))⟩

/-- DrawXorsTheSprite: no row at any `I`, fifteen rows, and both cases of `VF`. -/
theorem test_witness_DrawXorsTheSprite :
    reachesAtI (strictAt 0xFFFF) (0 : Nibble).toNat ∧ reachesAtI (strictAt 0xFF1) (15 : Nibble).toNat ∧
    (pixelAt (setPixelTo clearDisplay 7 0 true) 7 0 = true ∧
      spriteCovers (drawState [(1, 0), (2, 0)]) 0 0 1 7 0 = true) ∧
    (∀ cx < 64, ∀ cy < 32, pixelAt State.reset.fb cx cy = true →
      spriteCovers State.reset 0 0 15 cx cy = false) := by
  refine ⟨.inl (by decide), .inr (.inr (by decide)), by decide, ?_⟩
  intro cx _ cy _ h
  simp [State.reset, pixelAt] at h

theorem test_witness_DrawTwiceRestoresTheScreen :
    (1 : Nibble) ≠ regF ∧ (2 : Nibble) ≠ regF ∧ reachesAtI (drawState [(1, 62), (2, 31)]) (2 : Nibble).toNat :=
  ⟨by decide, by decide, .inr (.inl (by decide))⟩

/-- CallPushesTheReturnAddress, ReturnUndoesCall: the last free place, then the full stack. -/
theorem test_witness_call :
    (List.replicate 15 (0x202 : Word)).length < State.reset.params.stackDepth ∧
    (List.replicate 16 (0x202 : Word)).length = State.reset.params.stackDepth := by decide

theorem test_witness_ReturnPopsIntoPc :
    ({ State.reset with stack := [0x204, 0x302] } : State).stack = [0x204] ++ [0x302] ∧ State.reset.stack = [] := by
  decide

theorem test_witness_unknown_skip_word :
    ((0x512F : Word).toNat / 4096 = 5 ∧ (0x512F : Word).toNat % 16 ≠ 0) ∧
    ((0x9121 : Word).toNat / 4096 = 9 ∧ (0x9121 : Word).toNat % 16 ≠ 0) := by decide

theorem test_witness_KeySkipsFollowTheInputDevice :
    (readV (withRegs [(4, 0)]) 4).toNat = (0 : Nibble).toNat ∧
    (readV (withRegs [(4, 15)]) 4).toNat = (15 : Nibble).toNat := by decide

theorem test_witness_KeyCodesAboveFifteen :
    (15 < (readV (withRegs [(4, 16)]) 4).toNat ∧ (withRegs [(4, 16)]).params.keyOor = .notPressed) ∧
    (15 < (readV (strictKeys (withRegs [(4, 255)])) 4).toNat ∧
      (strictKeys (withRegs [(4, 255)])).params.keyOor = .fault) := by decide

/-- AddSetsCarry, SubtractionsSetNoBorrow, ShiftsMoveABitIntoVF: a destination other than `VF`. -/
theorem test_witness_destination_not_VF : (0 : Nibble) ≠ regF ∧ (14 : Nibble) ≠ regF := by decide

theorem test_witness_KeyWaitEndsWithTheKey : State.reset.fault = none := by decide

theorem test_witness_LowestKeyResumes :
    State.reset.pending = none ∧
    (waiting.fault = none ∧ (0x8001 : Word).getLsbD (0 : Nibble).toNat = true ∧
      ∀ j < (0 : Nibble).toNat, (0x8001 : Word).getLsbD j = false) ∧
    ((0x8000 : Word).getLsbD (15 : Nibble).toNat = true ∧
      ∀ j < (15 : Nibble).toNat, (0x8000 : Word).getLsbD j = false) := by decide

/-- A batch that ends running (CycleEndsWithTimersAndSignals), the batch of a paused core, and a batch that faults
(FaultEndsTheCycle). -/
theorem test_witness_batches :
    ((programmed [0x12, 0x00]).fault = none ∧
      runBatch (programmed [0x12, 0x00]).params.speed (programmed [0x12, 0x00]) =
        .next (programmed [0x12, 0x00])) ∧
    (waiting.fault = none ∧ runBatch waiting.params.speed waiting = .next waiting) ∧
    runBatch State.reset.params.speed State.reset =
      .next { State.reset with pc := 0x202, fault := some (.unknownOpcode 0 0x200) } := by
  and_intros <;> rfl

/-- BatchStopsWhenHalted: each clause. -/
theorem test_witness_BatchStopsWhenHalted :
    runBatch 0 State.reset = .next State.reset ∧
    (runBatch 3 waiting = .next waiting ∧ waiting.paused = true) ∧
    (runBatch 2 (programmed [0x12, 0x00]) = .next (programmed [0x12, 0x00]) ∧
      step (programmed [0x12, 0x00]) = .next (programmed [0x12, 0x00])) := by
  and_intros <;> rfl

theorem test_witness_SelfJumpIsIdle :
    (programmed [0x12, 0x00]).fault = none ∧ (programmed [0x12, 0x00]).paused = false ∧
    (programmed [0x12, 0x00]).pc.toNat = (0x200 : Addr12).toNat ∧
    fetch16 (programmed [0x12, 0x00]).params (programmed [0x12, 0x00]).mem (programmed [0x12, 0x00]).pc.toNat =
      .ok (encode (.jp 0x200)) := by decide

theorem test_witness_TimersCountDownToZero : State.reset.paused = false := by decide

theorem test_witness_InstructionsKeepTheirFootprint :
    exec (.ldImm 3 7) State.reset = .next (writeV State.reset 3 7) := rfl

theorem test_witness_DelayTimerIsReadOnlyByFx07 : ∀ x, (.ldDtVx 3 : Instr) ≠ .ldVxDt x := by decide

/-- EveryStepKeepsTheInvariant: a running core with a stack that faults, and a paused one. -/
theorem test_witness_EveryStepKeepsTheInvariant :
    (Inv { State.reset with stack := [0x202] } ∧
      step { State.reset with stack := [0x202] } =
        .next { State.reset with stack := [0x202], pc := 0x202, fault := some (.unknownOpcode 0 0x200) }) ∧
    (Inv waiting ∧ step waiting = .next waiting) := by
  refine ⟨⟨⟨by decide, by decide, by decide, by decide, ?_⟩, rfl⟩, ⟨by decide, by decide, by decide, by decide, ?_⟩, rfl⟩
  · intro f h; cases h
  · intro f h; cases h

theorem test_witness_EveryHostOperationKeepsTheInvariant :
    perform (.keyDown 7) { core := waiting, mayLoad := false } =
      .next { core := keyDown 7 waiting, mayLoad := false } := rfl

theorem test_witness_FirstStepFetchesTheEntryPoint :
    load [0x12, 0x00] (resetWith Config.defaults ResetInit.default) =
      .next { resetWith Config.defaults ResetInit.default with
        mem := writeFrom (resetWith Config.defaults ResetInit.default).mem 0x200 [0x12, 0x00] } ∧
    decode 0x1200 = .ok (.jp 0x200) := by
  and_intros <;> rfl

/-- LoaderCopiesTheImage: the longest image, and the shortest that is too long. -/
theorem test_witness_LoaderCopiesTheImage :
    State.reset.mem.wf = true ∧ (List.replicate 3584 (0 : Byte)).length ≤ 3584 ∧
    3584 < (List.replicate 3585 (0 : Byte)).length := by
  exact ⟨by decide, by rw [List.length_replicate], by rw [List.length_replicate]; decide⟩

theorem test_witness_LoadOnlyBeforeTheFirstCycle :
    ({ core := State.reset, mayLoad := false } : Session).mayLoad = false ∧
    perform (.load []) { core := State.reset, mayLoad := true } =
      .next { core := State.reset, mayLoad := false } ∧
    perform .step { core := waiting, mayLoad := true } = .next { core := waiting, mayLoad := false } ∧
    perform .cycle { core := waiting, mayLoad := true } = .next { core := waiting, mayLoad := false } ∧
    perform (.keyDown 7) { core := State.reset, mayLoad := true } =
      .next { core := State.reset, mayLoad := true } ∧ ([] : List Byte).length ≤ 3584 :=
  ⟨rfl, rfl, rfl, rfl, rfl, by decide⟩

/-- FaultedSessionsRefuseLoads: a step that faults ends the time for a load, with the premise met before it. -/
theorem test_witness_FaultedSessionsRefuseLoads :
    State.reset.fault = none ∧
    perform .step { core := State.reset, mayLoad := true } =
      .next { core := { State.reset with pc := 0x202, fault := some (.unknownOpcode 0 0x200) }, mayLoad := false } :=
  ⟨by decide, rfl⟩

end Sys2Proof.Tests
end

section
/-!
The rules of memory (20_memory.md): the word the fetch forms from two bytes, and the fetch when both cells are formed.
-/

namespace Sys2Proof.Machine

open Sys2Proof.Safety

/-! ### The bytes of a word (R51) -/

@[simp] theorem wordOfBytes_high (hi lo : Byte) : (wordOfBytes hi lo).extractLsb' 8 8 = hi :=
  BitVec.extractLsb'_append_eq_left

@[simp] theorem wordOfBytes_low (hi lo : Byte) : (wordOfBytes hi lo).extractLsb' 0 8 = lo :=
  BitVec.extractLsb'_append_eq_right

theorem wordOfBytes_toNat (hi lo : Byte) : (wordOfBytes hi lo).toNat = hi.toNat * 256 + lo.toNat := by
  unfold wordOfBytes
  rw [BitVec.toNat_append, ← Nat.shiftLeft_add_eq_or_of_lt lo.isLt, Nat.shiftLeft_eq]

/-! ### The fetch (R53) -/

/-- The fetch of two cells that are both formed: `fetch16_cases` without its fault. -/
theorem fetch16_ok {p : Params} {m : Memory} {a : Nat} (h : p.memOor = .wrap ∨ a + 1 < 4096) :
    fetch16 p m a = .ok (wordOfBytes (m.read (cellAt a)) (m.read (cellAt (a + 1)))) := by
  rcases fetch16_cases p m a with ⟨_, hok⟩ | ⟨hfault, hout, _⟩
  · exact hok
  · rcases h with hwrap | hin
    · rw [hfault] at hwrap; cases hwrap
    · omega

/-- Settles O8: the fetch forms its word with `wordOfBytes`, whose two bytes and value are known; the last clause is
the address 4096 modulo 4096. -/
theorem fetchIsBigEndian : Obligations.FetchIsBigEndian := by
  unfold Obligations.FetchIsBigEndian
  refine ⟨fun p m a h => ?_, ?_⟩
  · exact ⟨_, fetch16_ok h, wordOfBytes_high _ _, wordOfBytes_low _ _, wordOfBytes_toNat _ _⟩
  · decide

end Sys2Proof.Machine
end

section
/-!
The display (40_display.md): the one word that decodes to `CLS`, and the cleared framebuffer.
-/

namespace Sys2Proof

/-! ### Families without `CLS` (R63) -/

theorem decodeFamily8_ne_cls (op : Word) : decodeFamily8 op ≠ .ok .cls := by
  unfold decodeFamily8
  split <;> simp

theorem decodeFamilyE_ne_cls (op : Word) : decodeFamilyE op ≠ .ok .cls := by
  unfold decodeFamilyE
  split <;> simp

theorem decodeFamilyF_ne_cls (op : Word) : decodeFamilyF op ≠ .ok .cls := by
  unfold decodeFamilyF
  split <;> simp

/-! ### Family 0 (R63, R68 row 1) -/

theorem decodeFamily0_eq_cls_iff (op : Word) : decodeFamily0 op = .ok .cls ↔ op = 0x00E0 := by
  unfold decodeFamily0
  split
  · simpa
  · split <;> simpa

/-- Only family 0 can answer `CLS`. -/
theorem decode_eq_cls_imp_family0 {op : Word} (h : decode op = .ok .cls) : decodeFamily0 op = .ok .cls := by
  unfold decode at h
  split at h
  case h_1 => exact h
  case h_9 => exact absurd h (decodeFamily8_ne_cls op)
  case h_15 => exact absurd h (decodeFamilyE_ne_cls op)
  case h_16 => exact absurd h (decodeFamilyF_ne_cls op)
  case h_6 | h_10 => split at h <;> cases h
  all_goals cases h

theorem decode_eq_cls_iff (op : Word) : decode op = .ok .cls ↔ op = 0x00E0 := by
  constructor
  · intro h
    exact (decodeFamily0_eq_cls_iff op).mp (decode_eq_cls_imp_family0 h)
  · rintro rfl
    rfl

end Sys2Proof

namespace Sys2Proof.Machine

open Sys2Proof.Safety

/-- R81: the mask 0xFFFF fixes the whole word. -/
theorem cls_encodedBy : EncodedBy 0x00E0 0xFFFF (fun _ => .cls) := by
  intro op
  have hrow : op &&& 0xFFFF = 0x00E0 ↔ op = 0x00E0 := by simpa [OpRow.accepts] using accepts_FFFF 0x00E0 op
  exact hrow.trans (decode_eq_cls_iff op).symm

/-- Settles O16: `CLS` is family 0's word 0x00E0, and its next state is the one it starts from with `clearDisplay`. -/
theorem clsUnsetsEveryPixel : Obligations.ClsUnsetsEveryPixel := by
  unfold Obligations.ClsUnsetsEveryPixel
  refine ⟨cls_encodedBy, fun s => ?_⟩
  have hexec : exec .cls s = .next { s with fb := clearDisplay } := rfl
  exact ⟨_, hexec, pixelAt_clearDisplay, rfl, fun _ => rfl⟩

end Sys2Proof.Machine
end

section
/-!
Control transfer (41_control.md): the words of `JP`, and what it does to the state. The words come from a fact about the
whole decoder: it answers an instruction only for a word that the instruction's row accepts.
-/

namespace Sys2Proof

/-! ### The row of a decoded instruction accepts its word (R63, R68) -/

theorem decodeFamily0_row_accepts {op : Word} {i : Instr} (h : decodeFamily0 op = .ok i) :
    i.row.accepts op = true := by
  unfold decodeFamily0 at h
  split at h
  · next hop => cases h; exact (accepts_FFFF _ op).mpr hop
  · split at h
    · next hop => cases h; exact (accepts_FFFF _ op).mpr hop
    · cases h

/-- The rows of family 8 fix the top nibble and n. -/
theorem decodeFamily8_row_accepts {op : Word} {i : Instr} (htop : opTop op = 0x8#4) (h : decodeFamily8 op = .ok i) :
    i.row.accepts op = true := by
  unfold decodeFamily8 at h
  split at h
  case h_10 => cases h
  all_goals
    next hn => cases h; exact (accepts_F00F _ _ (by decide) op).mpr ⟨htop, hn⟩

/-- The rows of family E fix the top nibble and kk. -/
theorem decodeFamilyE_row_accepts {op : Word} {i : Instr} (htop : opTop op = 0xE#4) (h : decodeFamilyE op = .ok i) :
    i.row.accepts op = true := by
  unfold decodeFamilyE at h
  split at h
  case h_3 => cases h
  all_goals
    next hkk => cases h; exact (accepts_F0FF _ _ (by decide) op).mpr ⟨htop, hkk⟩

/-- The rows of family F fix the top nibble and kk. -/
theorem decodeFamilyF_row_accepts {op : Word} {i : Instr} (htop : opTop op = 0xF#4) (h : decodeFamilyF op = .ok i) :
    i.row.accepts op = true := by
  unfold decodeFamilyF at h
  split at h
  case h_10 => cases h
  all_goals
    next hkk => cases h; exact (accepts_F0FF _ _ (by decide) op).mpr ⟨htop, hkk⟩

/-- Families 0, 8, E and F dispatch further, families 5 and 9 check that n is 0, and every other family has one row, which
fixes the top nibble alone. -/
theorem decode_row_accepts {op : Word} {i : Instr} (h : decode op = .ok i) : i.row.accepts op = true := by
  unfold decode at h
  split at h
  case h_1 => exact decodeFamily0_row_accepts h
  case h_9 htop => exact decodeFamily8_row_accepts htop h
  case h_15 htop => exact decodeFamilyE_row_accepts htop h
  case h_16 htop => exact decodeFamilyF_row_accepts htop h
  case h_17 => cases h
  case h_6 htop | h_10 htop =>
    split at h
    · next hn => cases h; exact (accepts_F00F _ _ (by decide) op).mpr ⟨htop, hn⟩
    · cases h
  all_goals
    next htop => cases h; exact (accepts_F000 _ (by decide) op).mpr htop

/-! ### The words of `JP` (R68) -/

theorem decode_of_opTop_one {op : Word} (h : opTop op = 0x1#4) : decode op = .ok (.jp (opNnn op)) := by
  unfold decode
  rw [h]
  rfl

end Sys2Proof

namespace Sys2Proof.Machine

open Sys2Proof.Safety

theorem jp_encodedBy : EncodedBy 0x1000 0xF000 (fun op => .jp (opNnn op)) := by
  intro op
  constructor
  · intro h
    have hrow : OpRow.accepts ⟨0x1000, 0xF000⟩ op = true := beq_iff_eq.mpr h
    exact decode_of_opTop_one ((accepts_F000 0x1#4 (by decide) op).mp hrow)
  · intro h
    exact beq_iff_eq.mp (decode_row_accepts h)

/-! ### The jump (R92) -/

theorem exec_jp (nnn : Addr12) (s : State) : exec (.jp nnn) s = .next (jumpTo s (zextAddr nnn)) := rfl

@[simp] theorem zextAddr_toNat (nnn : Addr12) : (zextAddr nnn).toNat = nnn.toNat :=
  BitVec.toNat_setWidth_of_le (by decide)

theorem jumpTo_onlyPc (s : State) (w : Word) : OnlyPc s (jumpTo s w) := ⟨rfl, fun _ => rfl⟩

/-- Settles O20: the mask 0xF000 fixes the top nibble, which only `JP` has at 1, and its next state is a `jumpTo`. -/
theorem jumpSetsPc : Obligations.JumpSetsPc := by
  unfold Obligations.JumpSetsPc
  exact ⟨jp_encodedBy, fun s nnn => ⟨_, exec_jp nnn s, zextAddr_toNat nnn, jumpTo_onlyPc s _⟩⟩

end Sys2Proof.Machine
end

section
/-!
Register loads and arithmetic that write no flag (43_alu.md): the words of their rows, and that each of them is one
`writeV`.
-/

namespace Sys2Proof

/-! ### The words of families 6, 7 and 8 (R61, R63) -/

theorem decode_of_opTop_six {op : Word} (h : opTop op = 0x6#4) : decode op = .ok (.ldImm (opX op) (opKk op)) := by
  unfold decode
  rw [h]
  rfl

theorem decode_of_opTop_seven {op : Word} (h : opTop op = 0x7#4) : decode op = .ok (.addImm (opX op) (opKk op)) := by
  unfold decode
  rw [h]
  rfl

theorem decode_of_opTop_eight {op : Word} (h : opTop op = 0x8#4) : decode op = decodeFamily8 op := by
  unfold decode
  rw [h]
  rfl

theorem decodeFamily8_of_opN_zero {op : Word} (h : opN op = 0x0#4) :
    decodeFamily8 op = .ok (.ldReg (opX op) (opY op)) := by
  unfold decodeFamily8
  rw [h]
  rfl

theorem decodeFamily8_of_opN_one {op : Word} (h : opN op = 0x1#4) :
    decodeFamily8 op = .ok (.orReg (opX op) (opY op)) := by
  unfold decodeFamily8
  rw [h]
  rfl

theorem decodeFamily8_of_opN_two {op : Word} (h : opN op = 0x2#4) :
    decodeFamily8 op = .ok (.andReg (opX op) (opY op)) := by
  unfold decodeFamily8
  rw [h]
  rfl

theorem decodeFamily8_of_opN_three {op : Word} (h : opN op = 0x3#4) :
    decodeFamily8 op = .ok (.xorReg (opX op) (opY op)) := by
  unfold decodeFamily8
  rw [h]
  rfl

end Sys2Proof

namespace Sys2Proof.Machine

open Sys2Proof.Safety

/-! ### A row's words from one direction of the decoder (R63, R68) -/

/-- The decoder answers an instruction only for a word its row accepts (`decode_row_accepts`), so it is enough that it
answers `mk op` for every word of the row. -/
theorem encodedBy_of_accepts {p m : Word} {mk : Word → Instr} (hrow : ∀ op, (mk op).row = ⟨p, m⟩)
    (hdec : ∀ op, OpRow.accepts ⟨p, m⟩ op = true → decode op = .ok (mk op)) : EncodedBy p m mk := by
  intro op
  constructor
  · intro h
    exact hdec op (beq_iff_eq.mpr h)
  · intro h
    have hacc := decode_row_accepts h
    rw [hrow op] at hacc
    exact beq_iff_eq.mp hacc

/-- A row that fixes the top nibble alone. -/
theorem encodedBy_of_opTop {p : Word} {mk : Word → Instr} (t : Nibble) (hp : p = t ++ 0x000#12)
    (hrow : ∀ op, (mk op).row = ⟨p, 0xF000⟩) (hdec : ∀ op, opTop op = t → decode op = .ok (mk op)) :
    EncodedBy p 0xF000 mk :=
  encodedBy_of_accepts hrow fun op h => hdec op ((accepts_F000 t hp op).mp h)

/-- A row of family 8, which fixes n too. -/
theorem encodedBy_of_family8 {p : Word} {mk : Word → Instr} (n : Nibble) (hp : p = 0x8#4 ++ 0x0#4 ++ 0x0#4 ++ n)
    (hrow : ∀ op, (mk op).row = ⟨p, 0xF00F⟩) (hdec : ∀ op, opN op = n → decodeFamily8 op = .ok (mk op)) :
    EncodedBy p 0xF00F mk := by
  refine encodedBy_of_accepts hrow fun op h => ?_
  obtain ⟨htop, hn⟩ := (accepts_F00F 0x8#4 n hp op).mp h
  exact (decode_of_opTop_eight htop).trans (hdec op hn)

theorem ldImm_encodedBy : EncodedBy 0x6000 0xF000 (fun op => .ldImm (opX op) (opKk op)) :=
  encodedBy_of_opTop 0x6#4 (by decide) (fun _ => rfl) fun _ => decode_of_opTop_six

theorem addImm_encodedBy : EncodedBy 0x7000 0xF000 (fun op => .addImm (opX op) (opKk op)) :=
  encodedBy_of_opTop 0x7#4 (by decide) (fun _ => rfl) fun _ => decode_of_opTop_seven

theorem ldReg_encodedBy : EncodedBy 0x8000 0xF00F (fun op => .ldReg (opX op) (opY op)) :=
  encodedBy_of_family8 0x0#4 (by decide) (fun _ => rfl) fun _ => decodeFamily8_of_opN_zero

theorem orReg_encodedBy : EncodedBy 0x8001 0xF00F (fun op => .orReg (opX op) (opY op)) :=
  encodedBy_of_family8 0x1#4 (by decide) (fun _ => rfl) fun _ => decodeFamily8_of_opN_one

theorem andReg_encodedBy : EncodedBy 0x8002 0xF00F (fun op => .andReg (opX op) (opY op)) :=
  encodedBy_of_family8 0x2#4 (by decide) (fun _ => rfl) fun _ => decodeFamily8_of_opN_two

theorem xorReg_encodedBy : EncodedBy 0x8003 0xF00F (fun op => .xorReg (opX op) (opY op)) :=
  encodedBy_of_family8 0x3#4 (by decide) (fun _ => rfl) fun _ => decodeFamily8_of_opN_three

/-! ### One register write (R111 to R116) -/

theorem writeV_onlyRegs (s : State) (x : Nibble) (b : Byte) : OnlyRegs (· = x) s (writeV s x b) :=
  ⟨rfl, fun _ hr => readV_writeV_other s b hr, fun _ => rfl⟩

theorem exec_ldImm (x : Nibble) (kk : Byte) (s : State) : exec (.ldImm x kk) s = .next (writeV s x kk) := rfl

theorem exec_addImm (x : Nibble) (kk : Byte) (s : State) :
    exec (.addImm x kk) s = .next (writeV s x (readV s x + kk)) := rfl

theorem exec_ldReg (x y : Nibble) (s : State) : exec (.ldReg x y) s = .next (writeV s x (readV s y)) := rfl

theorem exec_orReg (x y : Nibble) (s : State) :
    exec (.orReg x y) s = .next (writeV s x (readV s x ||| readV s y)) := rfl

theorem exec_andReg (x y : Nibble) (s : State) :
    exec (.andReg x y) s = .next (writeV s x (readV s x &&& readV s y)) := rfl

theorem exec_xorReg (x y : Nibble) (s : State) :
    exec (.xorReg x y) s = .next (writeV s x (readV s x ^^^ readV s y)) := rfl

/-- Settles O28: both loads are one `writeV`, of the immediate and of `Vy`. -/
theorem registerLoads : Obligations.RegisterLoads := by
  unfold Obligations.RegisterLoads
  refine ⟨⟨ldImm_encodedBy, ldReg_encodedBy⟩, fun s x y kk => ⟨?_, ?_⟩⟩
  · exact ⟨_, exec_ldImm x kk s, readV_writeV_same s x _, writeV_onlyRegs s x _⟩
  · exact ⟨_, exec_ldReg x y s, readV_writeV_same s x _, writeV_onlyRegs s x _⟩

/-- Settles O29: the byte sum is the sum modulo 256, and `Vx` is the one register written. -/
theorem addImmediateWrapsWithoutFlag : Obligations.AddImmediateWrapsWithoutFlag := by
  unfold Obligations.AddImmediateWrapsWithoutFlag
  refine ⟨addImm_encodedBy, fun s x kk => ⟨_, exec_addImm x kk s, ?_, writeV_onlyRegs s x _⟩⟩
  rw [readV_writeV_same]
  exact BitVec.toNat_add _ _

/-- Settles O30: each operation is one `writeV` of a bit-vector operator, which works bit by bit. -/
theorem logicalOperations : Obligations.LogicalOperations := by
  unfold Obligations.LogicalOperations
  refine ⟨⟨orReg_encodedBy, andReg_encodedBy, xorReg_encodedBy⟩, fun s x y => ⟨?_, ?_, ?_⟩⟩
  · refine ⟨_, exec_orReg x y s, writeV_onlyRegs s x _, fun b _ => ?_⟩
    rw [readV_writeV_same, BitVec.getLsbD_or]
  · refine ⟨_, exec_andReg x y s, writeV_onlyRegs s x _, fun b _ => ?_⟩
    rw [readV_writeV_same, BitVec.getLsbD_and]
  · refine ⟨_, exec_xorReg x y s, writeV_onlyRegs s x _, fun b _ => ?_⟩
    rw [readV_writeV_same, BitVec.getLsbD_xor]

end Sys2Proof.Machine
end

section
/-!
The loads of `I` (44_index_memory.md): the words of rows Annn and Fx29, and that each of them is one `writeI`.
-/

namespace Sys2Proof

/-! ### The words of families A and F (R61, R63) -/

theorem decode_of_opTop_ten {op : Word} (h : opTop op = 0xA#4) : decode op = .ok (.ldI (opNnn op)) := by
  unfold decode
  rw [h]
  rfl

theorem decode_of_opTop_fifteen {op : Word} (h : opTop op = 0xF#4) : decode op = decodeFamilyF op := by
  unfold decode
  rw [h]
  rfl

theorem decodeFamilyF_of_opKk_29 {op : Word} (h : opKk op = 0x29#8) : decodeFamilyF op = .ok (.ldF (opX op)) := by
  unfold decodeFamilyF
  rw [h]
  rfl

end Sys2Proof

namespace Sys2Proof.Machine

open Sys2Proof.Safety

/-- A row of family F, which fixes the top nibble and kk. -/
theorem encodedBy_of_familyF {p : Word} {mk : Word → Instr} (k : Byte) (hp : p = 0xF#4 ++ 0x0#4 ++ k)
    (hrow : ∀ op, (mk op).row = ⟨p, 0xF0FF⟩) (hdec : ∀ op, opKk op = k → decodeFamilyF op = .ok (mk op)) :
    EncodedBy p 0xF0FF mk := by
  refine encodedBy_of_accepts hrow fun op h => ?_
  obtain ⟨htop, hkk⟩ := (accepts_F0FF 0xF#4 k hp op).mp h
  exact (decode_of_opTop_fifteen htop).trans (hdec op hkk)

theorem ldI_encodedBy : EncodedBy 0xA000 0xF000 (fun op => .ldI (opNnn op)) :=
  encodedBy_of_opTop 0xA#4 (by decide) (fun _ => rfl) fun _ => decode_of_opTop_ten

theorem ldF_encodedBy : EncodedBy 0xF029 0xF0FF (fun op => .ldF (opX op)) :=
  encodedBy_of_familyF 0x29#8 (by decide) (fun _ => rfl) fun _ => decodeFamilyF_of_opKk_29

/-! ### One write of `I` (R131, R133) -/

theorem exec_ldI (nnn : Addr12) (s : State) : exec (.ldI nnn) s = .next (writeI s (zextAddr nnn)) := rfl

theorem exec_ldF (x : Nibble) (s : State) : exec (.ldF x) s = .next (writeI s (glyphAddr (readV s x))) := rfl

@[simp] theorem zextByte_toNat (b : Byte) : (zextByte b).toNat = b.toNat :=
  BitVec.toNat_setWidth_of_le (by decide)

/-- The greatest glyph address is 255 * 5, so the 16-bit product does not wrap. -/
theorem glyphAddr_toNat (b : Byte) : (glyphAddr b).toNat = b.toNat * 5 := by
  have hlt : b.toNat * 5 < 2 ^ 16 := by omega
  calc (glyphAddr b).toNat = (zextByte b).toNat * 5 % 2 ^ 16 := BitVec.toNat_mul _ _
    _ = b.toNat * 5 := by rw [zextByte_toNat, Nat.mod_eq_of_lt hlt]

theorem writeI_eq_with_i (s : State) (w : Word) : writeI s w = { s with i := (writeI s w).i } := rfl

theorem writeI_sameBytes (s : State) (w : Word) : SameBytes s (writeI s w) := fun _ => rfl

/-- Settles O35: both loads are one `writeI`, of the address `nnn` and of the glyph address, which does not wrap. -/
theorem indexLoads : Obligations.IndexLoads := by
  unfold Obligations.IndexLoads
  refine ⟨⟨ldI_encodedBy, ldF_encodedBy⟩, fun s nnn x => ⟨?_, ?_⟩⟩
  · exact ⟨_, exec_ldI nnn s, zextAddr_toNat nnn, writeI_eq_with_i s _, writeI_sameBytes s _⟩
  · exact ⟨_, exec_ldF x s, glyphAddr_toNat _, writeI_eq_with_i s _, writeI_sameBytes s _⟩

end Sys2Proof.Machine
end

section
/-!
The timer moves (45_timer_key.md): the words of `LD Vx, DT`, `LD DT, Vx` and `LD ST, Vx`, and the one field each of them
writes.
-/

namespace Sys2Proof

/-! ### The words of the timer moves (R63, R68) -/

theorem decodeFamilyF_of_opKk_07 {op : Word} (h : opKk op = 0x07#8) : decodeFamilyF op = .ok (.ldVxDt (opX op)) := by
  unfold decodeFamilyF
  rw [h]
  rfl

theorem decodeFamilyF_of_opKk_15 {op : Word} (h : opKk op = 0x15#8) : decodeFamilyF op = .ok (.ldDtVx (opX op)) := by
  unfold decodeFamilyF
  rw [h]
  rfl

theorem decodeFamilyF_of_opKk_18 {op : Word} (h : opKk op = 0x18#8) : decodeFamilyF op = .ok (.ldStVx (opX op)) := by
  unfold decodeFamilyF
  rw [h]
  rfl

end Sys2Proof

namespace Sys2Proof.Machine

open Sys2Proof.Safety

theorem ldVxDt_encodedBy : EncodedBy 0xF007 0xF0FF (fun op => .ldVxDt (opX op)) :=
  encodedBy_of_familyF 0x07#8 (by decide) (fun _ => rfl) fun _ => decodeFamilyF_of_opKk_07

theorem ldDtVx_encodedBy : EncodedBy 0xF015 0xF0FF (fun op => .ldDtVx (opX op)) :=
  encodedBy_of_familyF 0x15#8 (by decide) (fun _ => rfl) fun _ => decodeFamilyF_of_opKk_15

theorem ldStVx_encodedBy : EncodedBy 0xF018 0xF0FF (fun op => .ldStVx (opX op)) :=
  encodedBy_of_familyF 0x18#8 (by decide) (fun _ => rfl) fun _ => decodeFamilyF_of_opKk_18

/-! ### The timer moves (R141, R143, R144) -/

theorem exec_ldVxDt (x : Nibble) (s : State) : exec (.ldVxDt x) s = .next (writeV s x s.dt) := rfl

theorem exec_ldDtVx (x : Nibble) (s : State) : exec (.ldDtVx x) s = .next { s with dt := readV s x } := rfl

theorem exec_ldStVx (x : Nibble) (s : State) : exec (.ldStVx x) s = .next { s with st := readV s x } := rfl

/-- Settles O40: `LD Vx, DT` is one `writeV` of `DT`, and the other two replace one timer by `Vx`, which leaves the record's
other fields, memory among them, as they are. -/
theorem timerMoves : Obligations.TimerMoves := by
  unfold Obligations.TimerMoves
  refine ⟨⟨ldVxDt_encodedBy, ldDtVx_encodedBy, ldStVx_encodedBy⟩, fun s x => ⟨?_, ?_, ?_⟩⟩
  · exact ⟨_, exec_ldVxDt x s, readV_writeV_same s x _, writeV_onlyRegs s x _⟩
  · exact ⟨_, exec_ldDtVx x s, rfl, rfl, fun _ => rfl⟩
  · exact ⟨_, exec_ldStVx x s, rfl, rfl, fun _ => rfl⟩

end Sys2Proof.Machine
end

section
/-!
Reset and the loader (20_memory.md section 9; 70_reset_and_hazards.md): the accepted load, and the first step after it.
-/

namespace Sys2Proof.Machine

open Sys2Proof.Safety

/-! ### The accepted load (R56) -/

theorem load_eq_next_iff (image : List Byte) (s t : State) :
    load image s = .next t ↔ image.length ≤ 3584 ∧ t = { s with mem := writeFrom s.mem 0x200 image } := by
  unfold load
  split
  · next hlong =>
    have hnot : ¬ image.length ≤ 3584 := Nat.not_le.mpr hlong
    simp [hnot]
  · next hfits =>
    have hle : image.length ≤ 3584 := Nat.not_lt.mp hfits
    simp [hle, eq_comm]

/-- `read_writeFrom` at a cell the run covers. -/
theorem read_writeFrom_cellAt (m : Memory) (a r : Nat) (bs : List Byte) (hw : m.wf = true) (h : a + bs.length ≤ 4096)
    (hr : r < bs.length) : (writeFrom m a bs).read (cellAt (a + r)) = bs[r] := by
  have hval : (cellAt (a + r)).val = a + r := Nat.mod_eq_of_lt (by omega)
  rw [read_writeFrom m a bs hw h]
  simp [hval, hr]

/-! ### Reset (R190) -/

theorem resetWith_mem_wf (p : Params) (init : ResetInit) : (resetWith p init).mem.wf = true :=
  writeFrom_wf [] 0 _ rfl

/-! ### The step of a running core whose word decodes (R62) -/

theorem fetchDecode_of_decoded {s : State} {op : Word} {i : Instr} (hrun : halted s = false)
    (hop : fetch16 s.params s.mem s.pc.toNat = .ok op) (hdec : decode op = .ok i) :
    fetchDecode s = .runs i (advancePc s) := by
  simp [fetchDecode, hrun, hop, hdec]

theorem step_of_decoded {s : State} {op : Word} {i : Instr} (hrun : halted s = false)
    (hop : fetch16 s.params s.mem s.pc.toNat = .ok op) (hdec : decode op = .ok i) :
    step s = exec i (advancePc s) := by
  unfold step
  rw [fetchDecode_of_decoded hrun hop hdec]

/-! ### The entry point (R191) -/

/-- Settles O55: the loader writes memory alone, so the core still runs at 0x200, where both cells are formed under every
setting of `MEM_OOR` and hold the first bytes of the image. -/
theorem firstStepFetchesTheEntryPoint : Obligations.FirstStepFetchesTheEntryPoint := by
  unfold Obligations.FirstStepFetchesTheEntryPoint
  intro p init image t hload
  obtain ⟨hle, rfl⟩ := (load_eq_next_iff image _ t).mp hload
  have hfetch := fetch16_ok (p := p) (m := writeFrom (resetWith p init).mem 0x200 image) (a := 0x200)
    (.inr (by decide))
  refine ⟨rfl, hfetch, fun i hdec => step_of_decoded rfl hfetch hdec, ?_⟩
  rintro hi lo rest rfl
  have hfits : 0x200 + (hi :: lo :: rest).length ≤ 4096 := by omega
  have hwf := resetWith_mem_wf p init
  exact ⟨read_writeFrom_cellAt _ 0x200 0 _ hwf hfits (by simp), read_writeFrom_cellAt _ 0x200 1 _ hwf hfits (by simp)⟩

end Sys2Proof.Machine
end

section
/-!
Decoding and encoding (30_encoding.md sections 3 to 8): each undoes the other, and a word decodes exactly when a row of the
opcode map accepts it.
-/

namespace Sys2Proof

/-! ### Decoding an encoded instruction (R61, R70) -/

/-- The fields of the encoded word are the instruction's operands, and its fixed fields choose the decoder's arm. -/
theorem decode_encode (i : Instr) : decode (encode i) = .ok i := by
  cases i with
  | cls | ret => rfl
  | jp nnn | call nnn | ldI nnn | jpV0 nnn => simp [decode, encode, fields_tnnn]
  | seImm x kk | sneImm x kk | ldImm x kk | addImm x kk | rnd x kk => simp [decode, encode, fields_txkk]
  | seReg x y | sneReg x y => simp [decode, encode, fields_txyn]
  | drw x y n => simp [decode, encode, fields_txyn]
  | ldReg x y | orReg x y | andReg x y | xorReg x y | addReg x y | subReg x y | shr x y | subnReg x y | shl x y =>
    simp [decode, decodeFamily8, encode, fields_txyn]
  | skp x | sknp x => simp [decode, decodeFamilyE, encode, fields_txkk]
  | ldVxDt x | ldVxK x | ldDtVx x | ldStVx x | addI x | ldF x | ldB x | ldMemVx x | ldVxMem x =>
    simp [decode, decodeFamilyF, encode, fields_txkk]

/-- A word is its high byte above its low byte (R51). -/
theorem wordOfBytes_extract (op : Word) : wordOfBytes (op.extractLsb' 8 8) (op.extractLsb' 0 8) = op := by
  unfold wordOfBytes
  rw [BitVec.extractLsb'_append_extractLsb'_eq_extractLsb' (by decide), BitVec.extractLsb'_eq_self]

theorem decodeBytes_encodeBytes (i : Instr) (rest : List Byte) :
    decodeBytes (encodeBytes i ++ rest) = .ok (i, rest) := by
  simp [encodeBytes, decodeBytes, wordOfBytes_extract, decode_encode]

/-- Settles O2: `decode_encode`, and for the bytes also that the two of them make the word again. -/
theorem decodeOfEncodeIsIdentity : Obligations.DecodeOfEncodeIsIdentity := by
  unfold Obligations.DecodeOfEncodeIsIdentity
  exact fun i rest => ⟨decode_encode i, decodeBytes_encodeBytes i rest⟩

/-! ### Encoding a decoded word (R63) -/

theorem encode_of_decodeFamily0 {op : Word} {i : Instr} (h : decodeFamily0 op = .ok i) : encode i = op := by
  unfold decodeFamily0 at h
  split at h
  · next hop => cases h; exact hop.symm
  · split at h
    · next hop => cases h; exact hop.symm
    · cases h

theorem encode_of_decodeFamily8 {op : Word} {i : Instr} (htop : opTop op = 0x8#4) (h : decodeFamily8 op = .ok i) :
    encode i = op := by
  unfold decodeFamily8 at h
  split at h
  case h_10 => cases h
  all_goals
    next hn =>
      cases h
      conv_rhs => rw [← word_of_txyn op, htop, hn]
      rfl

theorem encode_of_decodeFamilyE {op : Word} {i : Instr} (htop : opTop op = 0xE#4) (h : decodeFamilyE op = .ok i) :
    encode i = op := by
  unfold decodeFamilyE at h
  split at h
  case h_3 => cases h
  all_goals
    next hkk =>
      cases h
      conv_rhs => rw [← word_of_txkk op, htop, hkk]
      rfl

theorem encode_of_decodeFamilyF {op : Word} {i : Instr} (htop : opTop op = 0xF#4) (h : decodeFamilyF op = .ok i) :
    encode i = op := by
  unfold decodeFamilyF at h
  split at h
  case h_10 => cases h
  all_goals
    next hkk =>
      cases h
      conv_rhs => rw [← word_of_txkk op, htop, hkk]
      rfl

/-- Every arm of the decoder fixes the fields its row names and keeps all the others as operands, so that the fields make
the word again. -/
theorem encode_of_decode {op : Word} {i : Instr} (h : decode op = .ok i) : encode i = op := by
  unfold decode at h
  split at h
  case h_1 => exact encode_of_decodeFamily0 h
  case h_9 htop => exact encode_of_decodeFamily8 htop h
  case h_15 htop => exact encode_of_decodeFamilyE htop h
  case h_16 htop => exact encode_of_decodeFamilyF htop h
  case h_17 => cases h
  case h_6 htop | h_10 htop =>
    split at h
    · next hn =>
        cases h
        conv_rhs => rw [← word_of_txyn op, htop, hn]
        rfl
    · cases h
  case h_14 htop =>
    cases h
    conv_rhs => rw [← word_of_txyn op, htop]
    rfl
  case h_2 htop | h_3 htop | h_11 htop | h_12 htop =>
    cases h
    conv_rhs => rw [← word_of_tnnn op, htop]
    rfl
  case h_4 htop | h_5 htop | h_7 htop | h_8 htop | h_13 htop =>
    cases h
    conv_rhs => rw [← word_of_txkk op, htop]
    rfl

/-- Settles O3. -/
theorem encodeOfDecodeIsIdentity : Obligations.EncodeOfDecodeIsIdentity := by
  unfold Obligations.EncodeOfDecodeIsIdentity
  exact fun op i h => encode_of_decode h

/-! ### A word decodes exactly when a row accepts it (R63, R69) -/

theorem decodeFamily0_error {op : Word} {e : DecodeError} (h : decodeFamily0 op = .error e) : e = .unknown op := by
  unfold decodeFamily0 at h
  split at h
  · cases h
  · split at h <;> cases h
    rfl

theorem decodeFamily8_error {op : Word} {e : DecodeError} (h : decodeFamily8 op = .error e) : e = .unknown op := by
  unfold decodeFamily8 at h
  split at h <;> cases h
  rfl

theorem decodeFamilyE_error {op : Word} {e : DecodeError} (h : decodeFamilyE op = .error e) : e = .unknown op := by
  unfold decodeFamilyE at h
  split at h <;> cases h
  rfl

theorem decodeFamilyF_error {op : Word} {e : DecodeError} (h : decodeFamilyF op = .error e) : e = .unknown op := by
  unfold decodeFamilyF at h
  split at h <;> cases h
  rfl

/-- The decoder refuses a word by name. -/
theorem decode_error_eq_unknown {op : Word} {e : DecodeError} (h : decode op = .error e) : e = .unknown op := by
  unfold decode at h
  split at h
  case h_1 => exact decodeFamily0_error h
  case h_9 => exact decodeFamily8_error h
  case h_15 => exact decodeFamilyE_error h
  case h_16 => exact decodeFamilyF_error h
  case h_17 => cases h; rfl
  case h_6 | h_10 =>
    split at h <;> cases h
    rfl
  all_goals cases h

/-- What a row with mask 0xF000 fixes, read off its pattern. -/
theorem opTop_of_accepts_F000 {p op : Word} (h : OpRow.accepts ⟨p, 0xF000⟩ op = true) : opTop op = opTop p := by
  obtain rfl : opTop op ++ 0x000#12 = p := (and_F000 op).symm.trans (beq_iff_eq.mp h)
  exact (fields_tnnn (opTop op) 0#12).1.symm

/-- What a row with mask 0xF00F fixes, read off its pattern. -/
theorem fields_of_accepts_F00F {p op : Word} (h : OpRow.accepts ⟨p, 0xF00F⟩ op = true) :
    opTop op = opTop p ∧ opN op = opN p := by
  obtain rfl : opTop op ++ 0x0#4 ++ 0x0#4 ++ opN op = p := (and_F00F op).symm.trans (beq_iff_eq.mp h)
  obtain ⟨htop, -, -, hn⟩ := fields_txyn (opTop op) 0#4 0#4 (opN op)
  exact ⟨htop.symm, hn.symm⟩

/-- What a row with mask 0xF0FF fixes, read off its pattern. -/
theorem fields_of_accepts_F0FF {p op : Word} (h : OpRow.accepts ⟨p, 0xF0FF⟩ op = true) :
    opTop op = opTop p ∧ opKk op = opKk p := by
  obtain rfl : opTop op ++ 0x0#4 ++ opKk op = p := (and_F0FF op).symm.trans (beq_iff_eq.mp h)
  obtain ⟨htop, -, hkk⟩ := fields_txkk (opTop op) 0#4 (opKk op)
  exact ⟨htop.symm, hkk.symm⟩

/-- The row of `i` fixes exactly the fields that choose the decoder's arm of `i`, which answers some instruction. -/
theorem decodes_of_row_accepts (i : Instr) {op : Word} (h : i.row.accepts op = true) : ∃ j, decode op = .ok j := by
  cases i with
  | cls | ret =>
    obtain rfl := (accepts_FFFF _ op).mp h
    exact ⟨_, rfl⟩
  | jp nnn | call nnn | ldI nnn | jpV0 nnn | seImm x kk | sneImm x kk | ldImm x kk | addImm x kk | rnd x kk | drw x y n =>
    unfold decode
    rw [opTop_of_accepts_F000 h]
    exact ⟨_, rfl⟩
  | seReg x y | sneReg x y =>
    obtain ⟨htop, hn⟩ := fields_of_accepts_F00F h
    unfold decode
    rw [htop, hn]
    exact ⟨_, rfl⟩
  | ldReg x y | orReg x y | andReg x y | xorReg x y | addReg x y | subReg x y | shr x y | subnReg x y | shl x y =>
    obtain ⟨htop, hn⟩ := fields_of_accepts_F00F h
    unfold decode decodeFamily8
    rw [htop, hn]
    exact ⟨_, rfl⟩
  | skp x | sknp x =>
    obtain ⟨htop, hkk⟩ := fields_of_accepts_F0FF h
    unfold decode decodeFamilyE
    rw [htop, hkk]
    exact ⟨_, rfl⟩
  | ldVxDt x | ldVxK x | ldDtVx x | ldStVx x | addI x | ldF x | ldB x | ldMemVx x | ldVxMem x =>
    obtain ⟨htop, hkk⟩ := fields_of_accepts_F0FF h
    unfold decode decodeFamilyF
    rw [htop, hkk]
    exact ⟨_, rfl⟩

/-- Each row of the table is the row of the instruction that its own pattern decodes to. -/
theorem exists_row_of_mem {r : OpRow} (h : r ∈ opcodeTable) : ∃ i : Instr, i.row = r := by
  have hrows : ∀ r ∈ opcodeTable, (decode r.pattern).toOption.map Instr.row = some r := by decide
  obtain ⟨i, -, hi⟩ := Option.map_eq_some_iff.mp (hrows r h)
  exact ⟨i, hi⟩

theorem wordWellFormed_iff_decodes (op : Word) : wordWellFormed op = true ↔ ∃ i, decode op = .ok i := by
  constructor
  · intro h
    obtain ⟨r, hr, hacc⟩ := List.any_eq_true.mp h
    obtain ⟨i, rfl⟩ := exists_row_of_mem hr
    exact decodes_of_row_accepts i hacc
  · rintro ⟨i, hi⟩
    exact List.any_eq_true.mpr ⟨i.row, Laws.EncodesInRow.row_mem i, decode_row_accepts hi⟩

theorem not_wordWellFormed_iff_unknown (op : Word) :
    wordWellFormed op = false ↔ decode op = .error (.unknown op) := by
  rw [← Bool.not_eq_true, wordWellFormed_iff_decodes]
  cases hd : decode op with
  | ok i => simp
  | error e => simp [decode_error_eq_unknown hd]

/-- Settles O4. -/
theorem unknownExactlyWhenNoRowMatches : Obligations.UnknownExactlyWhenNoRowMatches := by
  unfold Obligations.UnknownExactlyWhenNoRowMatches
  exact fun op => ⟨wordWellFormed_iff_decodes op, not_wordWellFormed_iff_unknown op⟩

/-! ### No two rows accept one word (30_encoding.md section 6) -/

/-- Two rows that accept one word agree on the bits both of them fix, and no two rows of the table do. -/
theorem row_eq_of_accepts {r q : OpRow} (hr : r ∈ opcodeTable) (hq : q ∈ opcodeTable) {op : Word}
    (hrop : r.accepts op = true) (hqop : q.accepts op = true) : r = q := by
  have hdisjoint : ∀ r ∈ opcodeTable, ∀ q ∈ opcodeTable, r.pattern &&& q.mask = q.pattern &&& r.mask → r = q := by
    decide
  refine hdisjoint r hr q hq ?_
  have hrp : op &&& r.mask = r.pattern := beq_iff_eq.mp hrop
  have hqp : op &&& q.mask = q.pattern := beq_iff_eq.mp hqop
  rw [← hrp, ← hqp, BitVec.and_assoc, BitVec.and_assoc, BitVec.and_comm r.mask]

/-- Settles O5: of the table, which lists each row once, the word's accepting rows are those equal to the row of `i`. -/
theorem decodedRowIsTheOnlyMatch : Obligations.DecodedRowIsTheOnlyMatch := by
  unfold Obligations.DecodedRowIsTheOnlyMatch
  intro op i h
  have hmem := Laws.EncodesInRow.row_mem i
  have hacc := decode_row_accepts h
  have hnodup : opcodeTable.Nodup := by decide
  have hsame : ∀ r ∈ opcodeTable, r.accepts op = (r == i.row) := by
    intro r hr
    rw [Bool.eq_iff_iff, beq_iff_eq]
    exact ⟨fun hrop => row_eq_of_accepts hr hmem hrop hacc, fun heq => heq ▸ hacc⟩
  rw [List.filter_congr hsame, List.filter_beq, List.count_eq_one_of_mem hnodup hmem]
  rfl

/-! ### Sample words (R68) -/

/-- Settles O1. -/
theorem sampleWordsDecode : Obligations.SampleWordsDecode := by
  unfold Obligations.SampleWordsDecode
  decide

end Sys2Proof
end

section
/-!
The arithmetic that writes a flag, and the random byte (43_alu.md).
-/

namespace Sys2Proof.Machine

open Sys2Proof.Safety

/-! ### A flag and a result (R64) -/

theorem writeFlagged_onlyRegs (s : State) (x : Nibble) (flag : Bool) (b : Byte) :
    OnlyRegs (fun r => r = x ∨ r = regF) s (writeFlagged s x flag b) := by
  refine ⟨rfl, fun r hr => ?_, fun _ => rfl⟩
  rw [not_or] at hr
  rw [readV_writeFlagged, if_neg hr.1, if_neg hr.2]

theorem readV_writeFlagged_result (s : State) (x : Nibble) (flag : Bool) (b : Byte) :
    readV (writeFlagged s x flag b) x = b := by
  rw [readV_writeFlagged, if_pos rfl]

/-- `VF` keeps the flag unless it is the destination. -/
theorem readV_writeFlagged_flag (s : State) {x : Nibble} (flag : Bool) (b : Byte) (hx : x ≠ regF) :
    readV (writeFlagged s x flag b) regF = flagByte flag := by
  rw [readV_writeFlagged, if_neg hx.symm, if_pos rfl]

theorem flagByte_decide (p : Prop) [Decidable p] : flagByte (decide p) = if p then 1 else 0 := by
  simp [flagByte]

theorem flagByte_toNat (b : Bool) : (flagByte b).toNat = b.toNat := by
  cases b <;> rfl

/-! ### Addition and subtraction (R117, R118, R120) -/

theorem exec_addReg (x y : Nibble) (s : State) :
    exec (.addReg x y) s =
      .next (writeFlagged s x (carryOf (readV s x) (readV s y)) (readV s x + readV s y)) := rfl

theorem exec_subReg (x y : Nibble) (s : State) :
    exec (.subReg x y) s =
      .next (writeFlagged s x (noBorrowOf (readV s x) (readV s y)) (readV s x - readV s y)) := rfl

theorem exec_subnReg (x y : Nibble) (s : State) :
    exec (.subnReg x y) s =
      .next (writeFlagged s x (noBorrowOf (readV s y) (readV s x)) (readV s y - readV s x)) := rfl

/-- Settles O31. -/
theorem addSetsCarry : Obligations.AddSetsCarry := by
  unfold Obligations.AddSetsCarry
  intro s x y
  refine ⟨_, exec_addReg x y s, writeFlagged_onlyRegs s x _ _, ?_, fun hx => ?_⟩
  · rw [readV_writeFlagged_result]
    exact BitVec.toNat_add _ _
  · rw [readV_writeFlagged_flag s _ _ hx]
    exact flagByte_decide _

theorem toNat_sub_byte (a b : Byte) : (a - b).toNat = (a.toNat + 256 - b.toNat) % 256 := by
  rw [BitVec.toNat_sub']
  have := b.isLt
  congr 1
  omega

/-- Settles O32: each subtraction writes the difference and the strict comparison of its operands. -/
theorem subtractionsSetNoBorrow : Obligations.SubtractionsSetNoBorrow := by
  unfold Obligations.SubtractionsSetNoBorrow
  intro s x y
  refine ⟨⟨_, exec_subReg x y s, writeFlagged_onlyRegs s x _ _, ?_, fun hx => ?_⟩,
    ⟨_, exec_subnReg x y s, writeFlagged_onlyRegs s x _ _, ?_, fun hx => ?_⟩⟩
  · rw [readV_writeFlagged_result, toNat_sub_byte]
  · rw [readV_writeFlagged_flag s _ _ hx]
    exact flagByte_decide _
  · rw [readV_writeFlagged_result, toNat_sub_byte]
  · rw [readV_writeFlagged_flag s _ _ hx]
    exact flagByte_decide _

/-! ### Shifts (R119, R121) -/

theorem exec_shr (x y : Nibble) (s : State) :
    exec (.shr x y) s = .next (writeFlagged s x (shiftedOutRight (readV s x)) (readV s x >>> 1)) := rfl

theorem exec_shl (x y : Nibble) (s : State) :
    exec (.shl x y) s = .next (writeFlagged s x (shiftedOutLeft (readV s x)) (readV s x <<< 1)) := rfl

theorem toNat_shiftRight_one (a : Byte) : (a >>> 1).toNat = a.toNat / 2 := by
  rw [BitVec.toNat_ushiftRight, Nat.shiftRight_eq_div_pow, Nat.pow_one]

theorem toNat_shiftLeft_one (a : Byte) : (a <<< 1).toNat = a.toNat * 2 % 256 := by
  rw [BitVec.toNat_shiftLeft, Nat.shiftLeft_eq, Nat.pow_one]

theorem shiftedOutRight_toNat (a : Byte) : (shiftedOutRight a).toNat = a.toNat % 2 := by
  rw [shiftedOutRight, BitVec.getLsbD, Nat.toNat_testBit, Nat.pow_zero, Nat.div_one]

theorem shiftedOutLeft_toNat (a : Byte) : (shiftedOutLeft a).toNat = a.toNat / 128 := by
  have := a.isLt
  rw [shiftedOutLeft, BitVec.getLsbD, Nat.toNat_testBit]
  omega

/-- Settles O33: neither meaning reads y, so both instructions of each pair answer the same state. -/
theorem shiftsMoveABitIntoVF : Obligations.ShiftsMoveABitIntoVF := by
  unfold Obligations.ShiftsMoveABitIntoVF
  intro s x y z
  refine ⟨⟨_, exec_shr x y s, exec_shr x z s, writeFlagged_onlyRegs s x _ _, ?_, fun hx => ?_⟩,
    ⟨_, exec_shl x y s, exec_shl x z s, writeFlagged_onlyRegs s x _ _, ?_, fun hx => ?_⟩⟩
  · rw [readV_writeFlagged_result, toNat_shiftRight_one]
  · rw [readV_writeFlagged_flag s _ _ hx, flagByte_toNat, shiftedOutRight_toNat]
  · rw [readV_writeFlagged_result, toNat_shiftLeft_one]
  · rw [readV_writeFlagged_flag s _ _ hx, flagByte_toNat, shiftedOutLeft_toNat]

/-! ### The random byte (R122) -/

theorem exec_rnd (x : Nibble) (kk : Byte) (s : State) :
    exec (.rnd x kk) s = .next (writeV (randomByte s).2 x (Config.randomByte s.randomDraws &&& kk)) := rfl

/-- Settles O34: `Vx` is written in the state that has drawn one byte. -/
theorem randomByteUnderMask : Obligations.RandomByteUnderMask := by
  unfold Obligations.RandomByteUnderMask
  intro s x kk
  refine ⟨_, exec_rnd x kk s, fun b _ => ?_, fun r hr => ?_, rfl, fun _ => rfl⟩
  · rw [readV_writeV_same, BitVec.getLsbD_and]
  · rw [readV_writeV_other _ _ hr, readV_randomByte_snd]

end Sys2Proof.Machine
end

section
/-!
Control transfer and skips (41_control.md, 42_skip.md), and the sum in `I` (44_index_memory.md).
-/

namespace Sys2Proof

/-! ### The words of the comparison skips (R63, R68) -/

theorem decode_of_opTop_three {op : Word} (h : opTop op = 0x3#4) : decode op = .ok (.seImm (opX op) (opKk op)) := by
  unfold decode
  rw [h]
  rfl

theorem decode_of_opTop_four {op : Word} (h : opTop op = 0x4#4) : decode op = .ok (.sneImm (opX op) (opKk op)) := by
  unfold decode
  rw [h]
  rfl

theorem decode_of_opTop_five {op : Word} (h : opTop op = 0x5#4) :
    decode op = if opN op = 0x0#4 then .ok (.seReg (opX op) (opY op)) else .error (.unknown op) := by
  unfold decode
  rw [h]
  rfl

theorem decode_of_opTop_nine {op : Word} (h : opTop op = 0x9#4) :
    decode op = if opN op = 0x0#4 then .ok (.sneReg (opX op) (opY op)) else .error (.unknown op) := by
  unfold decode
  rw [h]
  rfl

end Sys2Proof

namespace Sys2Proof.Machine

open Sys2Proof.Safety

theorem seImm_encodedBy : EncodedBy 0x3000 0xF000 (fun op => .seImm (opX op) (opKk op)) :=
  encodedBy_of_opTop 0x3#4 (by decide) (fun _ => rfl) fun _ => decode_of_opTop_three

theorem sneImm_encodedBy : EncodedBy 0x4000 0xF000 (fun op => .sneImm (opX op) (opKk op)) :=
  encodedBy_of_opTop 0x4#4 (by decide) (fun _ => rfl) fun _ => decode_of_opTop_four

theorem seReg_encodedBy : EncodedBy 0x5000 0xF00F (fun op => .seReg (opX op) (opY op)) := by
  refine encodedBy_of_accepts (fun _ => rfl) fun op h => ?_
  obtain ⟨htop, hn⟩ := (accepts_F00F 0x5#4 0x0#4 (by decide) op).mp h
  rw [decode_of_opTop_five htop, if_pos hn]

theorem sneReg_encodedBy : EncodedBy 0x9000 0xF00F (fun op => .sneReg (opX op) (opY op)) := by
  refine encodedBy_of_accepts (fun _ => rfl) fun op h => ?_
  obtain ⟨htop, hn⟩ := (accepts_F00F 0x9#4 0x0#4 (by decide) op).mp h
  rw [decode_of_opTop_nine htop, if_pos hn]

/-- Families 5 and 9 have no word with n other than 0. -/
theorem decode_skip_unknown {op : Word} (htop : op.toNat / 4096 = 5 ∨ op.toNat / 4096 = 9)
    (hn : op.toNat % 16 ≠ 0) : decode op = .error (.unknown op) := by
  have hn' : opN op ≠ 0x0#4 := fun h => hn (by rw [← opN_toNat, h]; rfl)
  rcases htop with htop | htop
  · have h5 : opTop op = 0x5#4 := BitVec.eq_of_toNat_eq (by rw [opTop_toNat, htop]; rfl)
    rw [decode_of_opTop_five h5, if_neg hn']
  · have h9 : opTop op = 0x9#4 := BitVec.eq_of_toNat_eq (by rw [opTop_toNat, htop]; rfl)
    rw [decode_of_opTop_nine h9, if_neg hn']

/-! ### The comparison skips (R100 to R104) -/

theorem exec_seImm (x : Nibble) (kk : Byte) (s : State) :
    exec (.seImm x kk) s = .next (skipIf s (readV s x == kk)) := rfl

theorem exec_sneImm (x : Nibble) (kk : Byte) (s : State) :
    exec (.sneImm x kk) s = .next (skipIf s (readV s x != kk)) := rfl

theorem exec_seReg (x y : Nibble) (s : State) :
    exec (.seReg x y) s = .next (skipIf s (readV s x == readV s y)) := rfl

theorem exec_sneReg (x y : Nibble) (s : State) :
    exec (.sneReg x y) s = .next (skipIf s (readV s x != readV s y)) := rfl

theorem skipIf_onlyPc (s : State) (b : Bool) : OnlyPc s (skipIf s b) := ⟨rfl, fun _ => rfl⟩

/-- A skip when two bytes are equal. -/
theorem skipIf_beq_pc_toNat (s : State) (a b : Byte) :
    (skipIf s (a == b)).pc.toNat = (if a.toNat = b.toNat then s.pc.toNat + 2 else s.pc.toNat) % 65536 := by
  have hpc : s.pc.toNat % 65536 = s.pc.toNat := Nat.mod_eq_of_lt s.pc.isLt
  by_cases h : a = b
  · simp [h]
  · simp [h, BitVec.toNat_inj, hpc]

/-- A skip when two bytes differ. -/
theorem skipIf_bne_pc_toNat (s : State) (a b : Byte) :
    (skipIf s (a != b)).pc.toNat = (if a.toNat = b.toNat then s.pc.toNat else s.pc.toNat + 2) % 65536 := by
  have hpc : s.pc.toNat % 65536 = s.pc.toNat := Nat.mod_eq_of_lt s.pc.isLt
  by_cases h : a = b
  · simp [h, hpc]
  · simp [h, BitVec.toNat_inj]

/-- Settles O25: each skip is one `skipIf`, on two bytes being equal or different. -/
theorem comparisonSkips : Obligations.ComparisonSkips := by
  unfold Obligations.ComparisonSkips
  refine ⟨⟨seImm_encodedBy, sneImm_encodedBy, seReg_encodedBy, sneReg_encodedBy⟩,
    fun op htop hn => decode_skip_unknown htop hn, fun s x y kk => ⟨?_, ?_, ?_, ?_⟩⟩
  · exact ⟨_, exec_seImm x kk s, skipIf_onlyPc s _, skipIf_beq_pc_toNat s _ _⟩
  · exact ⟨_, exec_sneImm x kk s, skipIf_onlyPc s _, skipIf_bne_pc_toNat s _ _⟩
  · exact ⟨_, exec_seReg x y s, skipIf_onlyPc s _, skipIf_beq_pc_toNat s _ _⟩
  · exact ⟨_, exec_sneReg x y s, skipIf_onlyPc s _, skipIf_bne_pc_toNat s _ _⟩

/-! ### The key skips (R105 to R107) -/

theorem byte_setWidth_four_of_toNat {b : Byte} {k : Nibble} (h : b.toNat = k.toNat) : b.setWidth 4 = k := by
  apply BitVec.eq_of_toNat_eq
  rw [BitVec.toNat_setWidth, h]
  exact Nat.mod_eq_of_lt k.isLt

/-- Settles O26: a key code up to 15 leaves the first case of each skip, which takes the next answer. -/
theorem keySkipsFollowTheInputDevice : Obligations.KeySkipsFollowTheInputDevice := by
  unfold Obligations.KeySkipsFollowTheInputDevice
  intro s x k hk
  have hlt := k.isLt
  constructor
  · rcases exec_skp_cases s x with ⟨-, h⟩ | ⟨hgt, -⟩ | ⟨hgt, -⟩
    · rw [byte_setWidth_four_of_toNat hk] at h
      exact ⟨_, h, rfl, rfl, fun _ => rfl⟩
    all_goals omega
  · rcases exec_sknp_cases s x with ⟨-, h⟩ | ⟨hgt, -⟩ | ⟨hgt, -⟩
    · rw [byte_setWidth_four_of_toNat hk] at h
      exact ⟨_, h, by cases Config.keyPressed s.keyDraws k <;> rfl, rfl, fun _ => rfl⟩
    all_goals omega

/-- Settles O27: a key code above 15 leaves the two cases of each skip that `KEY_OOR` chooses between. -/
theorem keyCodesAboveFifteen : Obligations.KeyCodesAboveFifteen := by
  unfold Obligations.KeyCodesAboveFifteen
  intro s x hx
  refine ⟨fun hp => ⟨?_, ?_⟩, fun hp => ⟨?_, ?_⟩⟩
  · rcases exec_skp_cases s x with ⟨hle, -⟩ | ⟨-, -, h⟩ | ⟨-, hf, -⟩
    · omega
    · exact h
    · exact absurd (hp.symm.trans hf) (by decide)
  · rcases exec_sknp_cases s x with ⟨hle, -⟩ | ⟨-, -, h⟩ | ⟨-, hf, -⟩
    · omega
    · exact h
    · exact absurd (hp.symm.trans hf) (by decide)
  · rcases exec_skp_cases s x with ⟨hle, -⟩ | ⟨-, hn, -⟩ | ⟨-, -, h⟩
    · omega
    · exact absurd (hn.symm.trans hp) (by decide)
    · exact h
  · rcases exec_sknp_cases s x with ⟨hle, -⟩ | ⟨-, hn, -⟩ | ⟨-, -, h⟩
    · omega
    · exact absurd (hn.symm.trans hp) (by decide)
    · exact h

/-! ### Jumps, calls and returns (R91, R93, R94) -/

theorem exec_jpV0 (nnn : Addr12) (s : State) :
    exec (.jpV0 nnn) s = .next (jumpTo s (zextAddr nnn + zextByte (readV s reg0))) := rfl

/-- Settles O24: the sum is at most 0xFFF + 0xFF, so the 16-bit addition does not wrap. -/
theorem jumpWithOffsetAddsV0 : Obligations.JumpWithOffsetAddsV0 := by
  unfold Obligations.JumpWithOffsetAddsV0
  intro s nnn
  refine ⟨_, exec_jpV0 nnn s, ?_, jumpTo_onlyPc s _⟩
  have hlt : nnn.toNat + (readV s reg0).toNat < 2 ^ 16 := by omega
  rw [jumpTo_pc, BitVec.toNat_add, zextAddr_toNat, zextByte_toNat, Nat.mod_eq_of_lt hlt]
  rfl

/-- Settles O21. -/
theorem callPushesTheReturnAddress : Obligations.CallPushesTheReturnAddress := by
  unfold Obligations.CallPushesTheReturnAddress
  intro s nnn
  rcases exec_call_cases s nnn with ⟨hfull, h⟩ | ⟨hroom, h⟩
  · exact ⟨fun hlt => absurd hfull (Nat.ne_of_lt hlt), fun _ => h⟩
  · exact ⟨fun _ => ⟨_, h, zextAddr_toNat nnn, rfl, rfl, fun _ => rfl⟩, fun hfull => absurd hfull hroom⟩

theorem exec_ret_of_stack {s : State} {rest : List Word} {w : Word} (hs : s.stack = rest ++ [w]) :
    exec .ret s = .next { s with stack := rest, pc := w } := by
  rcases exec_ret_cases s with ⟨hnil, -⟩ | ⟨rest', w', hs', h⟩
  · simp [hs] at hnil
  · obtain ⟨rfl, hw⟩ := List.append_inj' (hs.symm.trans hs') rfl
    cases hw
    exact h

/-- Settles O22. -/
theorem returnPopsIntoPc : Obligations.ReturnPopsIntoPc := by
  unfold Obligations.ReturnPopsIntoPc
  refine ⟨fun s rest w hs => ⟨_, exec_ret_of_stack hs, rfl, rfl, rfl, fun _ => rfl⟩, fun s hs => ?_⟩
  rcases exec_ret_cases s with ⟨-, h⟩ | ⟨rest, w, hs', -⟩
  · exact h
  · simp [hs] at hs'

/-- Settles O23: the address that `CALL` pushed last is the one that `RET` pops. -/
theorem returnUndoesCall : Obligations.ReturnUndoesCall := by
  unfold Obligations.ReturnUndoesCall
  intro s nnn hlt
  rcases exec_call_cases s nnn with ⟨hfull, -⟩ | ⟨-, h⟩
  · exact absurd hfull (Nat.ne_of_lt hlt)
  · exact ⟨_, h, exec_ret_of_stack rfl⟩

/-! ### The sum in `I` (R132) -/

theorem exec_addI (x : Nibble) (s : State) : exec (.addI x) s = .next (writeI s (s.i + zextByte (readV s x))) := rfl

/-- Settles O36. -/
theorem addToIndexWraps : Obligations.AddToIndexWraps := by
  unfold Obligations.AddToIndexWraps
  intro s x
  refine ⟨_, exec_addI x s, ?_, writeI_eq_with_i s _, writeI_sameBytes s _⟩
  rw [writeI_i, BitVec.toNat_add, zextByte_toNat]

end Sys2Proof.Machine
end

section
/-!
The footprint of every instruction (10_state.md section 11): one lemma per kind of update, and each instruction's next
state is one of these updates.
-/

namespace Sys2Proof.Machine

open Sys2Proof.Safety

/-! ### What each kind of update leaves as it is (R33) -/

section Updates

variable (i : Instr) (s : State)

theorem withinFootprint_refl : WithinFootprint i s s where
  params := rfl
  regs _ _ := rfl
  pc _ := rfl
  index _ := rfl
  stack _ := rfl
  dt _ := rfl
  st _ := rfl
  pause _ := ⟨rfl, rfl⟩
  audio := rfl
  fb _ := rfl
  bytes _ _ := rfl
  fault _ := rfl
  random _ := rfl
  keys _ _ := rfl

variable {i s}

theorem withinFootprint_raise (f : Fault) (hi : mayRaise i = true) : WithinFootprint i s (raise s f) :=
  { withinFootprint_refl i s with fault := fun h => absurd hi (by simp [h]) }

theorem withinFootprint_writeV {x : Nibble} (b : Byte) (hi : mayWriteV i x = true) :
    WithinFootprint i s (writeV s x b) :=
  { withinFootprint_refl i s with
    regs := fun r hr => readV_writeV_other s b (by rintro rfl; rw [hi] at hr; cases hr) }

theorem withinFootprint_writeFlagged {x : Nibble} (flag : Bool) (b : Byte) (hx : mayWriteV i x = true)
    (hF : mayWriteV i regF = true) : WithinFootprint i s (writeFlagged s x flag b) :=
  { withinFootprint_refl i s with
    regs := fun r hr => by
      have hrx : r ≠ x := by rintro rfl; rw [hx] at hr; cases hr
      have hrF : r ≠ regF := by rintro rfl; rw [hF] at hr; cases hr
      rw [readV_writeFlagged, if_neg hrx, if_neg hrF] }

theorem withinFootprint_writeI (w : Word) (hi : mayWriteI i = true) : WithinFootprint i s (writeI s w) :=
  { withinFootprint_refl i s with index := fun h => absurd hi (by simp [h]) }

theorem withinFootprint_jumpTo (w : Word) (hi : mayWritePc i = true) : WithinFootprint i s (jumpTo s w) :=
  { withinFootprint_refl i s with pc := fun h => absurd hi (by simp [h]) }

theorem withinFootprint_advancePc (hi : mayWritePc i = true) : WithinFootprint i s (advancePc s) :=
  withinFootprint_jumpTo _ hi

theorem withinFootprint_skipIf (b : Bool) (hi : mayWritePc i = true) : WithinFootprint i s (skipIf s b) :=
  { withinFootprint_refl i s with pc := fun h => absurd hi (by simp [h]) }

/-- A key skip that takes an answer. -/
theorem withinFootprint_skipIf_keyDraw {n : Nat} (b : Bool) (hi : mayWritePc i = true)
    (hk : ∃ x, i = .skp x ∨ i = .sknp x) : WithinFootprint i s (skipIf { s with keyDraws := n } b) :=
  { withinFootprint_refl i s with
    pc := fun h => absurd hi (by simp [h])
    keys := fun h1 h2 => by
      obtain ⟨x, hx | hx⟩ := hk
      · exact absurd hx (h1 x)
      · exact absurd hx (h2 x) }

/-- `RET` and `CALL`. -/
theorem withinFootprint_stack_pc (k : List Word) (w : Word) (hpc : mayWritePc i = true) (hstack : mayWriteStack i = true) :
    WithinFootprint i s { s with stack := k, pc := w } :=
  { withinFootprint_refl i s with
    pc := fun h => absurd hpc (by simp [h])
    stack := fun h => absurd hstack (by simp [h]) }

/-- A store to the cells from `I`. -/
theorem withinFootprint_writeCells (bs : List Byte) (hi : mayWriteMem i = true) :
    WithinFootprint i s { s with mem := writeCells s.mem (cellsFromI s (bytesAtI i)) bs } :=
  { withinFootprint_refl i s with
    bytes := fun a h => by
      rcases h with h | h
      · rw [hi] at h; cases h
      · refine read_writeCells_other s.mem _ bs ?_
        simpa [cellsFromI, eq_comm] using h }

end Updates

/-! ### Every instruction (R33) -/

theorem withinFootprint_drw (x y n : Nibble) (s : State) (cs : List (Fin 4096)) :
    WithinFootprint (.drw x y n) s (drawSprite s x y cs) :=
  { withinFootprint_refl (.drw x y n) s with
    fb := fun h => by cases h
    regs := fun _ hr => readV_writeV_other _ _ (by simpa [mayWriteV] using hr) }

theorem withinFootprint_ldVxMem (x : Nibble) (s : State) :
    WithinFootprint (.ldVxMem x) s
      { s with v := loadRegisters 0 (readCells s.mem (cellsFromI s (x.toNat + 1))) s.v } :=
  { withinFootprint_refl (.ldVxMem x) s with
    regs := fun r hr => by
      have hgt : x.toNat < r.toNat := by simpa [mayWriteV] using hr
      rw [readV_withV, getElem_loadRegisters, dif_neg]
      · rfl
      · simp [readCells_eq_map, cellsFromI]; omega }

theorem withinFootprint_rnd (x : Nibble) (kk b : Byte) (s : State) :
    WithinFootprint (.rnd x kk) s (writeV (randomByte s).2 x b) :=
  { withinFootprint_refl (.rnd x kk) s with
    regs := fun _ hr => readV_writeV_other _ _ (by simpa [mayWriteV] using hr)
    random := fun h => absurd rfl (h x kk) }

theorem exec_cls (s : State) : exec .cls s = .next { s with fb := clearDisplay } := rfl

theorem exec_ldVxK (x : Nibble) (s : State) : exec (.ldVxK x) s = .next { s with paused := true, pending := some x } :=
  rfl

/-- Each instruction answers a next state, by one of the updates above or by a fault raised. -/
theorem exec_withinFootprint (i : Instr) (s : State) : ∃ t, exec i s = .next t ∧ WithinFootprint i s t := by
  cases i with
  | cls => exact ⟨_, exec_cls s, { withinFootprint_refl .cls s with fb := fun h => by cases h }⟩
  | ret =>
    rcases exec_ret_cases s with ⟨-, h⟩ | ⟨_, _, -, h⟩
    · exact ⟨_, h, withinFootprint_raise _ rfl⟩
    · exact ⟨_, h, withinFootprint_stack_pc _ _ rfl rfl⟩
  | jp nnn | jpV0 nnn => exact ⟨_, rfl, withinFootprint_jumpTo _ rfl⟩
  | call nnn =>
    rcases exec_call_cases s nnn with ⟨-, h⟩ | ⟨-, h⟩
    · exact ⟨_, h, withinFootprint_raise _ rfl⟩
    · exact ⟨_, h, withinFootprint_stack_pc _ _ rfl rfl⟩
  | seImm x kk | sneImm x kk => exact ⟨_, rfl, withinFootprint_skipIf _ rfl⟩
  | seReg x y | sneReg x y => exact ⟨_, rfl, withinFootprint_skipIf _ rfl⟩
  | ldImm x kk | addImm x kk => exact ⟨_, rfl, withinFootprint_writeV _ (by simp [mayWriteV])⟩
  | ldReg x y | orReg x y | andReg x y | xorReg x y =>
    exact ⟨_, rfl, withinFootprint_writeV _ (by simp [mayWriteV])⟩
  | addReg x y | subReg x y | shr x y | subnReg x y | shl x y =>
    exact ⟨_, rfl, withinFootprint_writeFlagged _ _ (by simp [mayWriteV]) (by simp [mayWriteV])⟩
  | ldI nnn => exact ⟨_, rfl, withinFootprint_writeI _ rfl⟩
  | addI x | ldF x => exact ⟨_, rfl, withinFootprint_writeI _ rfl⟩
  | rnd x kk => exact ⟨_, rfl, withinFootprint_rnd x kk _ s⟩
  | drw x y n =>
    rcases exec_drw_cases s x y n with ⟨-, h⟩ | ⟨-, -, -, h⟩
    · exact ⟨_, h, withinFootprint_drw x y n s _⟩
    · exact ⟨_, h, withinFootprint_raise _ rfl⟩
  | skp x =>
    rcases exec_skp_cases s x with ⟨-, h⟩ | ⟨-, -, h⟩ | ⟨-, -, h⟩
    · exact ⟨_, h, withinFootprint_skipIf_keyDraw _ rfl ⟨x, .inl rfl⟩⟩
    · exact ⟨_, h, withinFootprint_refl _ s⟩
    · exact ⟨_, h, withinFootprint_raise _ rfl⟩
  | sknp x =>
    rcases exec_sknp_cases s x with ⟨-, h⟩ | ⟨-, -, h⟩ | ⟨-, -, h⟩
    · exact ⟨_, h, withinFootprint_skipIf_keyDraw _ rfl ⟨x, .inr rfl⟩⟩
    · exact ⟨_, h, withinFootprint_advancePc rfl⟩
    · exact ⟨_, h, withinFootprint_raise _ rfl⟩
  | ldVxDt x => exact ⟨_, exec_ldVxDt x s, withinFootprint_writeV _ (by simp [mayWriteV])⟩
  | ldVxK x =>
    exact ⟨_, exec_ldVxK x s, { withinFootprint_refl (.ldVxK x) s with pause := fun h => absurd rfl (h x) }⟩
  | ldDtVx x =>
    exact ⟨_, exec_ldDtVx x s, { withinFootprint_refl (.ldDtVx x) s with dt := fun h => absurd rfl (h x) }⟩
  | ldStVx x =>
    exact ⟨_, exec_ldStVx x s, { withinFootprint_refl (.ldStVx x) s with st := fun h => absurd rfl (h x) }⟩
  | ldB x =>
    rcases exec_ldB_cases s x with ⟨-, h⟩ | ⟨-, -, h⟩
    · exact ⟨_, h, withinFootprint_writeCells (i := .ldB x) _ rfl⟩
    · exact ⟨_, h, withinFootprint_raise _ rfl⟩
  | ldMemVx x =>
    rcases exec_ldMemVx_cases s x with ⟨-, h⟩ | ⟨-, -, h⟩
    · exact ⟨_, h, withinFootprint_writeCells (i := .ldMemVx x) _ rfl⟩
    · exact ⟨_, h, withinFootprint_raise _ rfl⟩
  | ldVxMem x =>
    rcases exec_ldVxMem_cases s x with ⟨-, h⟩ | ⟨-, -, h⟩
    · exact ⟨_, h, withinFootprint_ldVxMem x s⟩
    · exact ⟨_, h, withinFootprint_raise _ rfl⟩

theorem withinFootprint_of_exec {i : Instr} {s t : State} (h : exec i s = .next t) : WithinFootprint i s t := by
  obtain ⟨u, hu, hw⟩ := exec_withinFootprint i s
  rw [h] at hu
  cases hu
  exact hw

/-- Settles O48. -/
theorem instructionsKeepTheirFootprint : Obligations.InstructionsKeepTheirFootprint := by
  unfold Obligations.InstructionsKeepTheirFootprint
  exact fun i s t h => withinFootprint_of_exec h

end Sys2Proof.Machine
end

section
/-!
The timers and the audio level as inputs of an instruction (10_state.md sections 6 and 9): only `Fx07` reads one of them.
-/

namespace Sys2Proof.Machine

open Sys2Proof.Safety

/-- `s` with other values of `DT`, `ST` and `audio_on`. -/
def withTimers (dt st : Byte) (audio : Bool) (s : State) : State := { s with dt := dt, st := st, audioOn := audio }

theorem decimalDigits_length (b : Byte) : (decimalDigits b).length = 3 := rfl

section WithTimers

variable (dt st : Byte) (audio : Bool) (s : State)

theorem withTimers_pc : (withTimers dt st audio s).pc = s.pc := rfl

theorem readV_withTimers (x : Nibble) : readV (withTimers dt st audio s) x = readV s x := rfl

theorem push_withTimers (w : Word) :
    push (withTimers dt st audio s) w = (push s w).map (withTimers dt st audio) := by
  rcases push_cases s w with ⟨hfull, h⟩ | ⟨hroom, h⟩ <;> rw [h]
  · exact if_pos hfull
  · exact if_neg hroom

theorem keyIsDown_withTimers (k : Byte) :
    keyIsDown (withTimers dt st audio s) k = (keyIsDown s k).map (Prod.map id (withTimers dt st audio)) := by
  unfold keyIsDown
  by_cases h : k.toNat ≤ 15
  · rw [if_pos h, if_pos h]
    rfl
  · rw [if_neg h, if_neg h]
    simp only [withTimers]
    cases s.params.keyOor <;> rfl

/-- An instruction that names no timer does the same whatever `DT`, `ST` and `audio_on` are: the shared operations it uses
choose their case by other fields. -/
theorem exec_withTimers {i : Instr} (hread : ∀ x, i ≠ .ldVxDt x) (hdt : ∀ x, i ≠ .ldDtVx x) (hst : ∀ x, i ≠ .ldStVx x) :
    exec i (withTimers dt st audio s) = mapNext (withTimers dt st audio) (exec i s) := by
  cases i with
  | ldVxDt x => exact absurd rfl (hread x)
  | ldDtVx x => exact absurd rfl (hdt x)
  | ldStVx x => exact absurd rfl (hst x)
  | ret =>
    simp only [exec, execRet, pop, withTimers]
    cases s.stack.getLast? <;> rfl
  | call nnn =>
    simp only [exec, execCall, withTimers_pc, push_withTimers]
    cases push s s.pc <;> rfl
  | skp x =>
    simp only [exec, execSkp, readV_withTimers, keyIsDown_withTimers]
    cases keyIsDown s (readV s x) <;> rfl
  | sknp x =>
    simp only [exec, execSknp, readV_withTimers, keyIsDown_withTimers]
    cases keyIsDown s (readV s x) <;> rfl
  | drw x y n =>
    simp only [exec, execDrw, cellsAtI, withTimers]
    cases cellsOf s.params s.i.toNat n.toNat <;> rfl
  | ldB x =>
    simp only [exec, execLdB, storeAtI, decimalDigits_length, cellsAtI, withTimers]
    cases cellsOf s.params s.i.toNat 3 <;> rfl
  | ldMemVx x =>
    simp only [exec, execLdMemVx, storeAtI, cellsAtI, withTimers]
    cases cellsOf s.params s.i.toNat (registersUpTo s.v x).length <;> rfl
  | ldVxMem x =>
    simp only [exec, execLdVxMem, loadAtI, cellsAtI, withTimers]
    cases cellsOf s.params s.i.toNat (x.toNat + 1) <;> rfl
  | _ => rfl

end WithTimers

/-- The three instructions that name a timer, and the others. -/
theorem timerInstr_cases (i : Instr) :
    (∃ x, i = .ldVxDt x) ∨ (∃ x, i = .ldDtVx x) ∨ (∃ x, i = .ldStVx x) ∨
      ((∀ x, i ≠ .ldVxDt x) ∧ (∀ x, i ≠ .ldDtVx x) ∧ (∀ x, i ≠ .ldStVx x)) := by
  cases i <;> simp

/-- Settles O49: an instruction that names no timer is `exec_withTimers` with its own `DT`, which its footprint keeps; the
other three are one update each. -/
theorem soundTimerIsUnread : Obligations.SoundTimerIsUnread := by
  unfold Obligations.SoundTimerIsUnread
  intro i s b a
  rcases timerInstr_cases i with ⟨x, rfl⟩ | ⟨x, rfl⟩ | ⟨x, rfl⟩ | ⟨hread, hdt, hst⟩
  · simp [exec_ldVxDt, mapNext, writeV]
  · simp [exec_ldDtVx, mapNext, readV]
  · simp [exec_ldStVx, mapNext, readV]
  · obtain ⟨t, ht, hw⟩ := exec_withinFootprint i s
    have hexec := exec_withTimers s.dt b a s hread hdt hst
    have hnot : ¬ ∃ x, i = .ldStVx x := fun ⟨x, hx⟩ => hst x hx
    rw [ht] at hexec ⊢
    simpa only [mapNext, withTimers, if_neg hnot, hw.dt hdt] using hexec

/-- Settles O50: as for O49, with its own `ST` and `audio_on`, which the footprint keeps. -/
theorem delayTimerIsReadOnlyByFx07 : Obligations.DelayTimerIsReadOnlyByFx07 := by
  unfold Obligations.DelayTimerIsReadOnlyByFx07
  intro i s b hread
  rcases timerInstr_cases i with ⟨x, rfl⟩ | ⟨x, rfl⟩ | ⟨x, rfl⟩ | ⟨-, hdt, hst⟩
  · exact absurd rfl (hread x)
  · simp [exec_ldDtVx, mapNext, readV]
  · simp [exec_ldStVx, mapNext, readV]
  · obtain ⟨t, ht, hw⟩ := exec_withinFootprint i s
    have hexec := exec_withTimers b s.st s.audioOn s hread hdt hst
    have hnot : ¬ ∃ x, i = .ldDtVx x := fun ⟨x, hx⟩ => hdt x hx
    rw [ht] at hexec ⊢
    simpa only [mapNext, withTimers, if_neg hnot, hw.st hst, hw.audio] using hexec

end Sys2Proof.Machine
end

section
/-!
The invariant of the core (10_state.md sections 5 and 7; 60_exceptions.md section 1) along instructions, steps, cycles and
the operations of the host, and when `MemoryRange` is raised (20_memory.md sections 4 and 5).
-/

namespace Sys2Proof.Machine

open Sys2Proof.Safety

/-! ### An instruction raises a fault that fits, or goes on (R150, R158) -/

/-- What an instruction keeps when it raises no fault. -/
structure GoesOn (s t : State) : Prop where
  fault : t.fault = s.fault
  memory : s.mem.wf = true → t.mem.wf = true
  pause : (s.paused = true ↔ s.pending ≠ none) → (t.paused = true ↔ t.pending ≠ none)
  depth : s.stack.length ≤ s.params.stackDepth → t.stack.length ≤ t.params.stackDepth

/-- A next state that differs from `s` in other fields alone has these fields of `s`: `{ goesOn_refl s with }` says it of that
state. -/
theorem goesOn_refl (s : State) : GoesOn s s := ⟨rfl, id, id, id⟩

theorem goesOn_writeCells (s : State) (cs : List (Fin 4096)) (bs : List Byte) :
    GoesOn s { s with mem := writeCells s.mem cs bs } :=
  { goesOn_refl s with memory := writeCells_wf s.mem cs bs }

theorem faultFits_memoryRange_of_max {s : State} (a : Nat) (h : s.params.memOor = .fault) :
    faultFits s (.memoryRange (max a 4096)) := ⟨h, Nat.le_max_right a 4096⟩

/-- The eight instructions that can fault raise a fault that fits the state they start from, or go on like the others. -/
theorem exec_raises_or_goesOn (i : Instr) (s : State) :
    (∃ f, exec i s = .next (raise s f) ∧ faultFits s f) ∨ (∃ t, exec i s = .next t ∧ GoesOn s t) := by
  cases i with
  | ret =>
    rcases exec_ret_cases s with ⟨hnil, h⟩ | ⟨rest, w, hs, h⟩
    · exact .inl ⟨_, h, hnil⟩
    · refine .inr ⟨_, h, { goesOn_refl s with depth := fun hd => ?_ }⟩
      rw [hs, List.length_append] at hd
      exact Nat.le_of_add_right_le hd
  | call nnn =>
    rcases exec_call_cases s nnn with ⟨hfull, h⟩ | ⟨hroom, h⟩
    · exact .inl ⟨_, h, hfull, rfl⟩
    · refine .inr ⟨_, h, { goesOn_refl s with depth := fun hd => ?_ }⟩
      rw [List.length_append]
      exact Nat.lt_of_le_of_ne hd hroom
  | skp x =>
    rcases exec_skp_cases s x with ⟨-, h⟩ | ⟨-, -, h⟩ | ⟨hx, hp, h⟩
    · exact .inr ⟨_, h, { goesOn_refl s with }⟩
    · exact .inr ⟨_, h, goesOn_refl s⟩
    · exact .inl ⟨_, h, hp, hx⟩
  | sknp x =>
    rcases exec_sknp_cases s x with ⟨-, h⟩ | ⟨-, -, h⟩ | ⟨hx, hp, h⟩
    · exact .inr ⟨_, h, { goesOn_refl s with }⟩
    · exact .inr ⟨_, h, { goesOn_refl s with }⟩
    · exact .inl ⟨_, h, hp, hx⟩
  | drw x y n =>
    rcases exec_drw_cases s x y n with ⟨-, h⟩ | ⟨hp, -, -, h⟩
    · exact .inr ⟨_, h, { goesOn_refl s with }⟩
    · exact .inl ⟨_, h, faultFits_memoryRange_of_max _ hp⟩
  | ldB x =>
    rcases exec_ldB_cases s x with ⟨-, h⟩ | ⟨hp, -, h⟩
    · exact .inr ⟨_, h, goesOn_writeCells s _ _⟩
    · exact .inl ⟨_, h, faultFits_memoryRange_of_max _ hp⟩
  | ldMemVx x =>
    rcases exec_ldMemVx_cases s x with ⟨-, h⟩ | ⟨hp, -, h⟩
    · exact .inr ⟨_, h, goesOn_writeCells s _ _⟩
    · exact .inl ⟨_, h, faultFits_memoryRange_of_max _ hp⟩
  | ldVxMem x =>
    rcases exec_ldVxMem_cases s x with ⟨-, h⟩ | ⟨hp, -, h⟩
    · exact .inr ⟨_, h, { goesOn_refl s with }⟩
    · exact .inl ⟨_, h, faultFits_memoryRange_of_max _ hp⟩
  | ldVxK x => exact .inr ⟨_, exec_ldVxK x s, { goesOn_refl s with pause := fun _ => by simp }⟩
  | _ => exact .inr ⟨_, rfl, { goesOn_refl s with }⟩

/-! ### The invariant along a step (R62) -/

theorem halted_eq_false_iff (s : State) : halted s = false ↔ s.fault = none ∧ s.paused = false := by
  simp [halted]

/-- A fault that fits, raised in a running core. -/
theorem inv_raise {s : State} {f : Fault} (hs : Inv s) (hp : s.paused = false) (hfit : faultFits s f) :
    Inv (raise s f) where
  memory := hs.memory
  pause := hs.pause
  depth := hs.depth
  halt _ := hp
  fits g hg := by
    cases hg
    exact hfit

/-- The advance of `PC` in a core without a fault. -/
theorem inv_advancePc {s : State} (hs : Inv s) (hf : s.fault = none) : Inv (advancePc s) where
  memory := hs.memory
  pause := hs.pause
  depth := hs.depth
  halt := hs.halt
  fits f h := by
    rw [advancePc_fault, hf] at h
    cases h

theorem exec_keeps_inv {i : Instr} {s t : State} (hs : Inv s) (hf : s.fault = none) (hp : s.paused = false)
    (h : exec i s = .next t) : Inv t := by
  rcases exec_raises_or_goesOn i s with ⟨f, hr, hfit⟩ | ⟨u, hu, hgo⟩
  · cases h.symm.trans hr
    exact inv_raise hs hp hfit
  · cases h.symm.trans hu
    have hnone : t.fault = none := hgo.fault.trans hf
    exact ⟨hgo.memory hs.memory, hgo.pause hs.pause, hgo.depth hs.depth, fun h => absurd hnone h,
      fun f h => by rw [hnone] at h; cases h⟩

theorem step_keeps_inv {s t : State} (hs : Inv s) (h : step s = .next t) : Inv t := by
  rcases step_cases s with ⟨-, h'⟩ | ⟨hrun, hp, -, h'⟩ | ⟨hrun, op, e, -, hdec, h'⟩ | ⟨hrun, op, i, -, -, h'⟩
  · cases h.symm.trans h'
    exact hs
  · cases h.symm.trans h'
    obtain ⟨-, hpause⟩ := (halted_eq_false_iff s).mp hrun
    exact inv_raise hs hpause (faultFits_memoryRange_of_max _ hp)
  · cases h.symm.trans h'
    obtain ⟨hfault, hpause⟩ := (halted_eq_false_iff s).mp hrun
    obtain rfl := decode_error_eq_unknown hdec
    exact inv_raise (inv_advancePc hs hfault) hpause ⟨hdec, rfl⟩
  · obtain ⟨hfault, hpause⟩ := (halted_eq_false_iff s).mp hrun
    exact exec_keeps_inv (inv_advancePc hs hfault) hfault hpause (h'.symm.trans h)

/-- Settles O52. -/
theorem everyStepKeepsTheInvariant : Obligations.EveryStepKeepsTheInvariant := by
  unfold Obligations.EveryStepKeepsTheInvariant
  exact fun s t hs h => step_keeps_inv hs h

/-! ### Batches (R165, R166) -/

theorem runBatch_succ_of_halted (n : Nat) {s : State} (h : halted s = true) : runBatch (n + 1) s = .next s := by
  simp [runBatch, h]

theorem runBatch_succ_of_running (n : Nat) {s t : State} (hrun : halted s = false) (h : step s = .next t) :
    runBatch (n + 1) s = runBatch n t := by
  simp [runBatch, hrun, h]

theorem step_total (s : State) : ∃ t, step s = .next t := by
  rcases step_cases s with ⟨-, h⟩ | ⟨-, -, -, h⟩ | ⟨-, _, _, -, -, h⟩ | ⟨-, _, i, -, -, h⟩
  · exact ⟨_, h⟩
  · exact ⟨_, h⟩
  · exact ⟨_, h⟩
  · obtain ⟨t, ht, -⟩ := exec_withinFootprint i (advancePc s)
    exact ⟨t, h.trans ht⟩

/-- A batch of one step or more ends at once in a halted core, and otherwise is a step and the rest of the batch. -/
theorem runBatch_succ_cases (n : Nat) (s : State) :
    (halted s = true ∧ runBatch (n + 1) s = .next s) ∨
    (halted s = false ∧ ∃ t, step s = .next t ∧ runBatch (n + 1) s = runBatch n t) := by
  cases hh : halted s with
  | true => exact .inl ⟨rfl, runBatch_succ_of_halted n hh⟩
  | false =>
    obtain ⟨t, ht⟩ := step_total s
    exact .inr ⟨rfl, t, ht, runBatch_succ_of_running n hh ht⟩

theorem runBatch_total (n : Nat) (s : State) : ∃ t, runBatch n s = .next t := by
  induction n generalizing s with
  | zero => exact ⟨s, rfl⟩
  | succ n ih =>
    rcases runBatch_succ_cases n s with ⟨-, h⟩ | ⟨-, t, -, h⟩
    · exact ⟨s, h⟩
    · rw [h]
      exact ih t

/-- What every step keeps, a batch keeps. -/
theorem runBatch_keeps {P : State → Prop} (hstep : ∀ s t, P s → step s = .next t → P t) {n : Nat} {s t : State}
    (hs : P s) (h : runBatch n s = .next t) : P t := by
  induction n generalizing s with
  | zero =>
    cases h
    exact hs
  | succ n ih =>
    rcases runBatch_succ_cases n s with ⟨-, h'⟩ | ⟨-, u, hu, h'⟩
    · cases h.symm.trans h'
      exact hs
    · exact ih (hstep s u hs hu) (h'.symm.trans h)

/-! ### The cycle (R165 to R171) -/

theorem endCycle_of_fault {s : State} {f : Fault} (h : s.fault = some f) : endCycle s = s := by
  simp [endCycle, h]

theorem endCycle_of_noFault {s : State} (h : s.fault = none) : endCycle s = audioSignal (timerStep s) := by
  simp [endCycle, h]

theorem cycle_of_fault {s : State} {f : Fault} (h : s.fault = some f) : cycle s = .next s := by
  simp [cycle, h]

theorem cycle_of_batch {s t : State} (hf : s.fault = none) (h : runBatch s.params.speed s = .next t) :
    cycle s = .next (endCycle t) := by
  simp [cycle, hf, h]

/-- A cycle does nothing in a faulted core, and otherwise is a batch and what follows it. -/
theorem cycle_cases (s : State) :
    (s.fault ≠ none ∧ cycle s = .next s) ∨
    (s.fault = none ∧ ∃ t, runBatch s.params.speed s = .next t ∧ cycle s = .next (endCycle t)) := by
  cases hf : s.fault with
  | some f => exact .inl ⟨by simp, cycle_of_fault hf⟩
  | none =>
    obtain ⟨t, ht⟩ := runBatch_total s.params.speed s
    exact .inr ⟨rfl, t, ht, cycle_of_batch hf ht⟩

/-- The end of a cycle writes the two timers and the audio level alone. -/
theorem endCycle_eq_with (s : State) :
    endCycle s = { s with dt := (endCycle s).dt, st := (endCycle s).st, audioOn := (endCycle s).audioOn } := by
  unfold endCycle
  split
  · rfl
  · unfold timerStep
    split <;> rfl

theorem inv_withTimers {s : State} (hs : Inv s) (dt st : Byte) (audio : Bool) : Inv (withTimers dt st audio s) :=
  ⟨hs.memory, hs.pause, hs.depth, hs.halt, hs.fits⟩

theorem inv_endCycle {s : State} (hs : Inv s) : Inv (endCycle s) := by
  rw [endCycle_eq_with]
  exact inv_withTimers hs _ _ _

theorem cycle_keeps_inv {s t : State} (hs : Inv s) (h : cycle s = .next t) : Inv t := by
  rcases cycle_cases s with ⟨-, h'⟩ | ⟨-, u, hu, h'⟩
  · cases h.symm.trans h'
    exact hs
  · cases h.symm.trans h'
    exact inv_endCycle (runBatch_keeps (fun _ _ => step_keeps_inv) hs hu)

/-! ### Every operation answers a next state (60_exceptions.md sections 1 and 2) -/

theorem step_keeps_params {s t : State} (h : step s = .next t) : t.params = s.params := by
  rcases step_cases s with ⟨-, h'⟩ | ⟨-, -, -, h'⟩ | ⟨-, _, _, -, -, h'⟩ | ⟨-, _, i, -, -, h'⟩
  · cases h.symm.trans h'
    rfl
  · cases h.symm.trans h'
    rfl
  · cases h.symm.trans h'
    rfl
  · exact (withinFootprint_of_exec (h'.symm.trans h)).params

theorem cycle_keeps_params {s t : State} (h : cycle s = .next t) : t.params = s.params := by
  rcases cycle_cases s with ⟨-, h'⟩ | ⟨-, u, hu, h'⟩
  · cases h.symm.trans h'
    rfl
  · cases h.symm.trans h'
    have hparams : u.params = s.params :=
      runBatch_keeps (P := fun r => r.params = s.params) (fun _ _ hr hstep => (step_keeps_params hstep).trans hr) rfl hu
    rw [endCycle_eq_with]
    exact hparams

/-- Settles O11. -/
theorem everyStepAnswersANextState : Obligations.EveryStepAnswersANextState := by
  unfold Obligations.EveryStepAnswersANextState
  refine ⟨fun i s => ?_, fun s => ?_, fun s => ?_⟩
  · obtain ⟨t, ht, hw⟩ := exec_withinFootprint i s
    exact ⟨t, ht, hw.params⟩
  · obtain ⟨t, ht⟩ := step_total s
    exact ⟨t, ht, step_keeps_params ht⟩
  · rcases cycle_cases s with ⟨-, h⟩ | ⟨-, u, -, h⟩
    · exact ⟨s, h, rfl⟩
    · exact ⟨_, h, cycle_keeps_params h⟩

/-! ### The invariant along the operations of the host (R2) -/

/-- Reset, whatever the counters of the free values are. -/
theorem inv_resetWith_draws (p : Params) (init : ResetInit) (rd kd : Nat) :
    Inv { resetWith p init with randomDraws := rd, keyDraws := kd } where
  memory := resetWith_mem_wf p init
  pause := by simp [resetWith, State.reset]
  depth := Nat.zero_le _
  halt _ := rfl
  fits f h := by cases h

theorem inv_resetWith (p : Params) (init : ResetInit) : Inv (resetWith p init) :=
  inv_resetWith_draws p init 0 0

theorem inv_reset : Inv State.reset where
  memory := rfl
  pause := by simp [State.reset]
  depth := Nat.zero_le _
  halt _ := rfl
  fits f h := by cases h

/-- Settles O51. -/
theorem resetMeetsTheInvariant : Obligations.ResetMeetsTheInvariant := by
  unfold Obligations.ResetMeetsTheInvariant
  exact ⟨inv_reset, inv_resetWith⟩

theorem inv_load {image : List Byte} {s t : State} (hs : Inv s) (h : load image s = .next t) : Inv t := by
  obtain ⟨-, rfl⟩ := (load_eq_next_iff image s t).mp h
  exact ⟨writeFrom_wf _ _ _ hs.memory, hs.pause, hs.depth, hs.halt, hs.fits⟩

/-- A key resumes a core without a fault and with a pending register, and otherwise does nothing (R172, R173). -/
theorem keyDown_cases (k : Nibble) (s : State) :
    ((s.fault ≠ none ∨ s.pending = none) ∧ keyDown k s = s) ∨
    (s.fault = none ∧ ∃ x, s.pending = some x ∧
      keyDown k s = { writeV s x (zextKey k) with pending := none, paused := false }) := by
  unfold keyDown
  cases hf : s.fault with
  | some f => exact .inl ⟨.inl (by simp), rfl⟩
  | none =>
    cases hp : s.pending with
    | none => exact .inl ⟨.inr rfl, rfl⟩
    | some x => exact .inr ⟨rfl, x, rfl, rfl⟩

theorem inv_keyDown (k : Nibble) {s : State} (hs : Inv s) : Inv (keyDown k s) := by
  rcases keyDown_cases k s with ⟨-, h⟩ | ⟨hf, x, -, h⟩
  · rw [h]
    exact hs
  · rw [h]
    exact
      { memory := hs.memory
        pause := by simp
        depth := hs.depth
        halt := fun _ => rfl
        fits := hs.fits }

/-- An operation that answers a session answers one whose core is the next state. -/
theorem toSession_eq_next {ml : Bool} {o : Host.Outcome State Fault Refusal} {d : Session}
    (h : toSession ml o = .next d) : o = .next d.core ∧ d.mayLoad = ml := by
  cases o <;> cases h
  exact ⟨rfl, rfl⟩

theorem perform_load_eq_next {image : List Byte} {c d : Session} (h : perform (.load image) c = .next d) :
    c.mayLoad = true ∧ load image c.core = .next d.core ∧ d.mayLoad = false := by
  unfold perform at h
  dsimp only at h
  split at h
  · next hml => exact ⟨hml, toSession_eq_next h⟩
  · cases h

/-- Settles O53. -/
theorem everyHostOperationKeepsTheInvariant : Obligations.EveryHostOperationKeepsTheInvariant := by
  unfold Obligations.EveryHostOperationKeepsTheInvariant
  intro op c d hc h
  cases op with
  | reset init =>
    cases h
    exact inv_resetWith_draws _ init _ _
  | load image =>
    obtain ⟨-, hload, -⟩ := perform_load_eq_next h
    exact inv_load hc hload
  | step => exact step_keeps_inv hc (toSession_eq_next h).1
  | cycle => exact cycle_keeps_inv hc (toSession_eq_next h).1
  | keyDown k =>
    cases h
    exact inv_keyDown k hc

/-! ### `MemoryRange` (R48, R50, R155) -/

theorem not_reachesAtI {s : State} {n : Nat} (hp : s.params.memOor = .fault) (hn : 0 < n) (hout : 4096 < s.i.toNat + n) :
    ¬ reachesAtI s n := by
  rintro (h | h | h)
  · omega
  · cases hp.symm.trans h
  · omega

theorem exec_memoryRange {i : Instr} {s : State} (hp : s.params.memOor = .fault) (hn : 0 < bytesAtI i)
    (hout : 4096 < s.i.toNat + bytesAtI i) : exec i s = .next (raise s (.memoryRange (max s.i.toNat 4096))) := by
  have hno := not_reachesAtI hp hn hout
  cases i with
  | drw x y n =>
    rcases exec_drw_cases s x y n with ⟨h, -⟩ | ⟨-, -, -, h⟩
    · exact absurd h hno
    · exact h
  | ldB x =>
    rcases exec_ldB_cases s x with ⟨h, -⟩ | ⟨-, -, h⟩
    · exact absurd h hno
    · exact h
  | ldMemVx x =>
    rcases exec_ldMemVx_cases s x with ⟨h, -⟩ | ⟨-, -, h⟩
    · exact absurd h hno
    · exact h
  | ldVxMem x =>
    rcases exec_ldVxMem_cases s x with ⟨h, -⟩ | ⟨-, -, h⟩
    · exact absurd h hno
    · exact h
  | _ => exact absurd hn (Nat.lt_irrefl 0)

theorem step_memoryRange {s : State} (hrun : halted s = false) (hp : s.params.memOor = .fault)
    (hout : 4096 ≤ s.pc.toNat + 1) : step s = .next (raise s (.memoryRange (max s.pc.toNat 4096))) := by
  rcases fetch16_cases s.params s.mem s.pc.toNat with ⟨hin, -⟩ | ⟨-, -, h⟩
  · rcases hin with hwrap | hin
    · cases hp.symm.trans hwrap
    · omega
  · simp [step, fetchDecode, hrun, h]

/-- The fault that a step of an unfaulted core records fits the state it left. -/
theorem step_fault_fits {s t : State} {f : Fault} (hs : s.fault = none) (h : step s = .next t) (ht : t.fault = some f) :
    faultFits t f := by
  rcases step_cases s with ⟨-, h'⟩ | ⟨-, hp, -, h'⟩ | ⟨-, op, e, -, hdec, h'⟩ | ⟨-, op, i, -, -, h'⟩
  · cases h.symm.trans h'
    cases hs.symm.trans ht
  · cases h.symm.trans h'
    cases ht
    exact faultFits_memoryRange_of_max _ hp
  · cases h.symm.trans h'
    cases ht
    obtain rfl := decode_error_eq_unknown hdec
    exact ⟨hdec, rfl⟩
  · rcases exec_raises_or_goesOn i (advancePc s) with ⟨g, hr, hfit⟩ | ⟨u, hu, hgo⟩
    · cases (h.symm.trans h').trans hr
      cases ht
      exact hfit
    · cases (h.symm.trans h').trans hu
      cases (hgo.fault.trans hs).symm.trans ht

/-- Settles O13: under `MEM_OOR = wrap` a recorded `MemoryRange` would not fit the state. -/
theorem memoryRangeIsPrecise : Obligations.MemoryRangeIsPrecise := by
  unfold Obligations.MemoryRangeIsPrecise
  refine ⟨fun i s hp hn hout => exec_memoryRange hp hn hout, fun s hf hpause hp hout => ?_, fun s t a hp hf h ht => ?_⟩
  · exact step_memoryRange ((halted_eq_false_iff s).mpr ⟨hf, hpause⟩) hp hout
  · obtain ⟨hp', -⟩ := step_fault_fits hf h ht
    rw [step_keeps_params h, hp] at hp'
    cases hp'

end Sys2Proof.Machine
end

section
/-!
Memory as data (20_memory.md): the canonical list, register runs and digits stored and loaded (44_index_memory.md), the
memory that reset leaves and the loader.
-/

namespace Sys2Proof.Machine

open Sys2Proof.Safety

/-! ### The canonical list (log 4) -/

theorem wfFrom_cons {lo a : Nat} {v : Byte} {m : Memory} :
    Memory.wfFrom lo ((a, v) :: m) = true ↔
      lo ≤ a ∧ a < 4096 ∧ v ≠ Config.resetByte a ∧ Memory.wfFrom (a + 1) m = true := by
  simp only [Memory.wfFrom, Bool.and_eq_true, decide_eq_true_eq, and_assoc]

theorem lookup_cons_same (a : Nat) (v : Byte) (m : Memory) : Memory.lookup ((a, v) :: m) a = v := by
  simp [Memory.lookup]

theorem lookup_cons_other {a c : Nat} (v : Byte) (m : Memory) (h : c ≠ a) :
    Memory.lookup ((a, v) :: m) c = Memory.lookup m c := by
  simp [Memory.lookup, h]

/-- A listed entry differs from what a list that starts above it reads there. -/
theorem lookup_ne_of_head {lo lo' a : Nat} {v : Byte} {m k : Memory} (hm : Memory.wfFrom lo ((a, v) :: m) = true)
    (hk : Memory.wfFrom lo' k = true) (hlt : a < lo') : Memory.lookup ((a, v) :: m) a ≠ Memory.lookup k a := by
  obtain ⟨-, -, hv, -⟩ := wfFrom_cons.mp hm
  rw [lookup_cons_same, lookup_below k hk hlt]
  exact hv

/-- Two canonical lists that read the same have the same first entry, because the lower of two different ones would be read
in one list alone, and then the same rest. -/
theorem memory_ext {lo : Nat} {m k : Memory} (hm : Memory.wfFrom lo m = true) (hk : Memory.wfFrom lo k = true)
    (h : ∀ a < 4096, Memory.lookup m a = Memory.lookup k a) : m = k := by
  induction m generalizing lo k with
  | nil =>
    cases k with
    | nil => rfl
    | cons q k =>
      obtain ⟨b, w⟩ := q
      obtain ⟨-, hb, -, -⟩ := wfFrom_cons.mp hk
      exact absurd (h b hb).symm (lookup_ne_of_head (lo' := b + 1) hk rfl (Nat.lt_succ_self b))
  | cons p m ih =>
    obtain ⟨a, v⟩ := p
    obtain ⟨hloa, ha, hv, hm'⟩ := wfFrom_cons.mp hm
    cases k with
    | nil => exact absurd (h a ha) (lookup_ne_of_head (lo' := a + 1) hm rfl (Nat.lt_succ_self a))
    | cons q k =>
      obtain ⟨b, w⟩ := q
      obtain ⟨hlob, hb, hw, hk'⟩ := wfFrom_cons.mp hk
      rcases Nat.lt_trichotomy a b with hab | rfl | hba
      · have hk0 : Memory.wfFrom b ((b, w) :: k) = true := wfFrom_cons.mpr ⟨Nat.le_refl b, hb, hw, hk'⟩
        exact absurd (h a ha) (lookup_ne_of_head hm hk0 hab)
      · have hvw : v = w := by simpa [lookup_cons_same] using h a ha
        have htail : ∀ c < 4096, Memory.lookup m c = Memory.lookup k c := by
          intro c hc
          by_cases hca : c = a
          · subst hca
            rw [lookup_below m hm' (Nat.lt_succ_self c), lookup_below k hk' (Nat.lt_succ_self c)]
          · simpa [lookup_cons_other _ _ hca] using h c hc
        rw [hvw, ih hm' hk' htail]
      · have hm0 : Memory.wfFrom a ((a, v) :: m) = true := wfFrom_cons.mpr ⟨Nat.le_refl a, ha, hv, hm'⟩
        exact absurd (h b hb).symm (lookup_ne_of_head hk hm0 hba)

/-- Settles O12. -/
theorem canonicalMemoriesAreDetermined : Obligations.CanonicalMemoriesAreDetermined := by
  unfold Obligations.CanonicalMemoriesAreDetermined
  exact fun m k hm hk h => memory_ext hm hk fun a ha => h ⟨a, ha⟩

/-! ### Bytes stored from `I` (R134, R135) -/

theorem cellsFromI_length (s : State) (n : Nat) : (cellsFromI s n).length = n := by
  simp [cellsFromI]

/-- A run of bytes stored from `I` is read back byte by byte. -/
theorem read_writeCells_cellsFromI (s : State) {n r : Nat} {bs : List Byte} (hw : s.mem.wf = true)
    (hl : bs.length = n) (hn : n ≤ 4096) (hr : r < bs.length) :
    (writeCells s.mem (cellsFromI s n) bs).read (cellAt (s.i.toNat + r)) = bs[r] := by
  have hrun : readCells (writeCells s.mem (cellsFromI s n) bs) (cellsFromI s n) = bs :=
    readCells_writeCells s.mem _ bs hw (cellAt_run_nodup _ n hn) ((cellsFromI_length s n).trans hl.symm)
  rw [readCells_eq_map] at hrun
  rw [← List.getElem_of_eq hrun (by rw [List.length_map, cellsFromI_length]; omega)]
  simp [cellsFromI]

theorem registersUpTo_getElem (s : State) {x r : Nibble} (h : r.toNat < (registersUpTo s.v x).length) :
    (registersUpTo s.v x)[r.toNat] = readV s r := by
  simp [registersUpTo, readV]

theorem exec_ldMemVx_of_reaches {s : State} {x : Nibble} (h : reachesAtI s (x.toNat + 1)) :
    exec (.ldMemVx x) s =
      .next { s with mem := writeCells s.mem (cellsFromI s (x.toNat + 1)) (registersUpTo s.v x) } := by
  rcases exec_ldMemVx_cases s x with ⟨-, h'⟩ | ⟨hp, hout, -⟩
  · exact h'
  · exact absurd h (not_reachesAtI hp (Nat.succ_pos _) hout)

theorem exec_ldVxMem_of_reaches {s : State} {x : Nibble} (h : reachesAtI s (x.toNat + 1)) :
    exec (.ldVxMem x) s =
      .next { s with v := loadRegisters 0 (readCells s.mem (cellsFromI s (x.toNat + 1))) s.v } := by
  rcases exec_ldVxMem_cases s x with ⟨-, h'⟩ | ⟨hp, hout, -⟩
  · exact h'
  · exact absurd h (not_reachesAtI hp (Nat.succ_pos _) hout)

theorem exec_ldB_of_reaches {s : State} {x : Nibble} (h : reachesAtI s 3) :
    exec (.ldB x) s = .next { s with mem := writeCells s.mem (cellsFromI s 3) (decimalDigits (readV s x)) } := by
  rcases exec_ldB_cases s x with ⟨-, h'⟩ | ⟨hp, hout, -⟩
  · exact h'
  · exact absurd h (not_reachesAtI hp (by decide) hout)

/-- What `Fx55` leaves at `I + r`. -/
theorem read_stored_register {s : State} {x r : Nibble} (hw : s.mem.wf = true) (hr : r.toNat ≤ x.toNat) :
    (writeCells s.mem (cellsFromI s (x.toNat + 1)) (registersUpTo s.v x)).read (cellAt (s.i.toNat + r.toNat)) =
      readV s r := by
  have hx := x.isLt
  have hl := registersUpTo_length s.v x
  rw [read_writeCells_cellsFromI s hw hl (by omega) (by omega), registersUpTo_getElem]

/-- Settles O38. -/
theorem registersAreStored : Obligations.RegistersAreStored := by
  unfold Obligations.RegistersAreStored
  intro s x hw hreach
  exact ⟨cellsAtI_ok hreach, _, exec_ldMemVx_of_reaches hreach, fun r hr => read_stored_register hw hr,
    fun a ha => read_writeCells_other _ _ _ ha, rfl⟩

/-- Settles O37: the digits are below 256, so they are stored as they are. -/
theorem decimalDigitsAreStored : Obligations.DecimalDigitsAreStored := by
  unfold Obligations.DecimalDigitsAreStored
  intro s x hw hreach
  have hlt := (readV s x).isLt
  have hread : ∀ (r : Nat) (hr : r < 3),
      (writeCells s.mem (cellsFromI s 3) (decimalDigits (readV s x))).read (cellAt (s.i.toNat + r)) =
        (decimalDigits (readV s x))[r]'hr :=
    fun r hr => read_writeCells_cellsFromI s hw (decimalDigits_length _) (by decide) hr
  refine ⟨cellsAtI_ok hreach, _, exec_ldB_of_reaches hreach, ?_, ?_, ?_,
    fun a ha => read_writeCells_other _ _ _ ha, rfl⟩
  · rw [show s.i.toNat = s.i.toNat + 0 from rfl, hread 0 (by decide)]
    simp [decimalDigits]
    omega
  · rw [hread 1 (by decide)]
    simp [decimalDigits]
    omega
  · rw [hread 2 (by decide)]
    simp [decimalDigits]
    omega

/-- Settles O15: `I` and `I + 1` are the cells of `V0` and `V1`, and are formed as the store formed them. -/
theorem storedBytesAreFetched : Obligations.StoredBytesAreFetched := by
  unfold Obligations.StoredBytesAreFetched
  intro s x hw hx hreach
  refine ⟨_, exec_ldMemVx_of_reaches hreach, ?_⟩
  have hin : s.params.memOor = .wrap ∨ s.i.toNat + 1 < 4096 := by
    rcases hreach with h | h | h
    · omega
    · exact .inl h
    · exact .inr (by omega)
  have h0 := read_stored_register (x := x) (r := 0) hw (Nat.zero_le _)
  have h1 := read_stored_register (x := x) (r := 1) hw hx
  rw [fetch16_ok hin]
  exact congrArg Except.ok (congrArg₂ wordOfBytes h0 h1)

/-! ### Registers loaded from `I` (R136) -/

/-- What `Fx65` leaves in a register. -/
theorem readV_loaded (s : State) (x r : Nibble) :
    readV { s with v := loadRegisters 0 (readCells s.mem (cellsFromI s (x.toNat + 1))) s.v } r =
      if r.toNat ≤ x.toNat then s.mem.read (cellAt (s.i.toNat + r.toNat)) else readV s r := by
  rw [readV_withV, getElem_loadRegisters]
  simp [readCells_eq_map, cellsFromI, readV]

/-- Settles O39. -/
theorem registersAreLoaded : Obligations.RegistersAreLoaded := by
  unfold Obligations.RegistersAreLoaded
  intro s x hreach
  refine ⟨_, exec_ldVxMem_of_reaches hreach, fun r hr => ?_, rfl, fun r hr => ?_, fun _ => rfl⟩
  · rw [readV_loaded, if_pos hr]
  · rw [readV_loaded, if_neg hr]

/-- Settles O14: the load reads the cells of the same `I` that the store wrote. -/
theorem storeThenLoadRestoresRegisters : Obligations.StoreThenLoadRestoresRegisters := by
  unfold Obligations.StoreThenLoadRestoresRegisters
  intro s x w hw hreach
  refine ⟨_, _, exec_ldMemVx_of_reaches hreach, exec_ldVxMem_of_reaches hreach, fun r hr => ?_, fun r hr => ?_⟩
  · exact (readV_loaded _ x r).trans ((if_pos hr).trans (read_stored_register hw hr))
  · exact (readV_loaded _ x r).trans (if_neg (Nat.not_le.mpr hr))

/-! ### Reset and the loader (R40, R56) -/

theorem read_resetWith (p : Params) (init : ResetInit) (a : Fin 4096) :
    (resetWith p init).mem.read a = if h : a.val < 80 then init.font[a.val] else 0 := by
  have h := read_writeFrom [] 0 init.font.toList rfl (by simp) a
  refine h.trans ?_
  by_cases ha : a.val < 80
  · simp [ha]
  · simp [ha, Memory.read, Memory.lookup, Config.resetByte]

theorem resetWith_default : resetWith Config.defaults ResetInit.default = State.reset := by
  decide

/-- Settles O54. -/
theorem resetLeavesTheTabulatedState : Obligations.ResetLeavesTheTabulatedState := by
  unfold Obligations.ResetLeavesTheTabulatedState
  intro p init
  exact ⟨read_resetWith p init, rfl, rfl, rfl, rfl, rfl, rfl, rfl, rfl, rfl, rfl, resetWith_default⟩

/-- Settles O56. -/
theorem loaderCopiesTheImage : Obligations.LoaderCopiesTheImage := by
  unfold Obligations.LoaderCopiesTheImage
  intro image s hw
  refine ⟨fun hle => ⟨_, (load_eq_next_iff image s _).mpr ⟨hle, rfl⟩, rfl, fun r hr => ?_, fun a ha => ?_⟩,
    fun hlong => if_pos hlong⟩
  · exact read_writeFrom_cellAt s.mem 0x200 r image hw (by omega) hr
  · refine (read_writeFrom s.mem 0x200 image hw (by omega) a).trans (dif_neg ?_)
    omega

end Sys2Proof.Machine
end

section
/-!
The framebuffer (60_exceptions.md section 5) and the sprite (40_display.md): `drawRows` toggles exactly the cells that
`spriteCovers` names.
-/

namespace Sys2Proof.Machine

open Sys2Proof.Safety

/-! ### One pixel (R177) -/

theorem pixelAt_of_sameCell (fb : Framebuffer) {p q : Nat × Nat} (h : sameCell p q) :
    pixelAt fb p.1 p.2 = pixelAt fb q.1 q.2 := by
  obtain ⟨hx, hy⟩ := h
  simp only [pixelAt, hx, hy]

theorem pixelAt_mod (fb : Framebuffer) (x y : Nat) : pixelAt fb (x % 64) (y % 32) = pixelAt fb x y := by
  simp [pixelAt]

/-- A second `setPixel` at the same coordinates restores the cell and answers the opposite. -/
theorem setPixel_setPixel (fb : Framebuffer) (x y : Nat) :
    setPixel (setPixel fb x y).1 x y = (fb, !(setPixel fb x y).2) := by
  have htoggled : pixelAt (setPixel fb x y).1 x y = !pixelAt fb x y := by
    rw [pixelAt_setPixel, if_pos ⟨rfl, rfl⟩]
  refine Prod.ext (framebuffer_ext fun cx _ cy _ => ?_) htoggled
  rw [pixelAt_setPixel, htoggled, Bool.not_not]
  split
  · next hsame => exact pixelAt_of_sameCell fb (p := (x, y)) (q := (cx, cy)) ⟨hsame.1.symm, hsame.2.symm⟩
  · next hother => rw [pixelAt_setPixel, if_neg hother]

/-- Settles O17. -/
theorem setPixelTogglesAndReports : Obligations.SetPixelTogglesAndReports := by
  unfold Obligations.SetPixelTogglesAndReports
  intro fb x y
  refine ⟨(pixelAt_mod fb x y).symm, fun cx hx cy hy => ?_, ?_, ?_, setPixel_setPixel fb x y⟩
  · rw [pixelAt_setPixel, Nat.mod_eq_of_lt hx, Nat.mod_eq_of_lt hy]
    split
    · next hsame =>
      obtain ⟨rfl, rfl⟩ := hsame
      rw [pixelAt_mod]
    · rfl
  · simp [setPixel, setPixelTo, pixelAt]
  · simp [setPixel, setPixelTo, pixelAt]

/-! ### The points of a sprite and the cells it covers (R82, R83) -/

theorem readCells_cellsFromI_length (s : State) (n : Nat) : (readCells s.mem (cellsFromI s n)).length = n := by
  rw [readCells_eq_map, List.length_map, cellsFromI_length]

theorem readCells_cellsFromI_getElem (s : State) {n r : Nat} (hr : r < (readCells s.mem (cellsFromI s n)).length) :
    (readCells s.mem (cellsFromI s n))[r] = s.mem.read (cellAt (s.i.toNat + r)) := by
  simp [readCells_eq_map, cellsFromI]

/-- A cell is covered iff a point of the sprite falls on it: its column and row, counted from the sprite's corner modulo 64
and 32, are those of the point. -/
theorem spriteCovers_iff (s : State) (x0 y0 : Nat) {n cx cy : Nat} (hn : n ≤ 32) (hx : cx < 64) (hy : cy < 32) :
    spriteCovers s x0 y0 n cx cy = true ↔
      ∃ p ∈ spritePoints x0 y0 (readCells s.mem (cellsFromI s n)), sameCell p (cx, cy) := by
  have hl := readCells_cellsFromI_length s n
  simp only [spriteCovers, Bool.and_eq_true, decide_eq_true_eq]
  constructor
  · rintro ⟨⟨hc, hr⟩, hbit⟩
    refine ⟨(x0 + (cx + 64 - x0 % 64) % 64, y0 + (cy + 32 - y0 % 32) % 32),
      mem_spritePoints.mpr ⟨_, by rw [hl]; exact hr, _, hc, ?_, rfl⟩, ?_⟩
    · rw [readCells_cellsFromI_getElem]
      exact hbit
    · simp only [sameCell]
      omega
  · rintro ⟨p, hp, hsame⟩
    obtain ⟨r, hr, c, hc, hbit, rfl⟩ := mem_spritePoints.mp hp
    rw [readCells_cellsFromI_getElem] at hbit
    simp only [sameCell] at hsame
    have hcol : (cx + 64 - x0 % 64) % 64 = c := by omega
    have hrow : (cy + 32 - y0 % 32) % 32 = r := by omega
    rw [hcol, hrow]
    exact ⟨⟨hc, by omega⟩, hbit⟩

section Draw

variable (s : State) (x0 y0 : Nat) {n : Nat} (hn : n ≤ 32)

include hn

theorem pixelAt_drawRows {cx cy : Nat} (hx : cx < 64) (hy : cy < 32) :
    pixelAt (drawRows x0 y0 (readCells s.mem (cellsFromI s n)) (s.fb, false)).1 cx cy =
      (pixelAt s.fb cx cy ^^ spriteCovers s x0 y0 n cx cy) := by
  obtain ⟨htoggle, -⟩ := drawRows_spec x0 y0 (readCells s.mem (cellsFromI s n)) s.fb
    (by rw [readCells_cellsFromI_length]; exact hn)
  have hiff := (htoggle cx cy).trans (spriteCovers_iff s x0 y0 hn hx hy).symm
  cases hcov : spriteCovers s x0 y0 n cx cy with
  | true => rw [hiff.mpr hcov, Bool.xor_true]
  | false =>
    rw [Bool.xor_false]
    exact Bool.eq_not.not_left.mp fun h => by rw [hiff.mp h] at hcov; cases hcov

/-- A draw collides iff a covered cell was set. -/
theorem drawRows_collides_iff :
    (drawRows x0 y0 (readCells s.mem (cellsFromI s n)) (s.fb, false)).2 = true ↔
      ∃ cx < 64, ∃ cy < 32, pixelAt s.fb cx cy = true ∧ spriteCovers s x0 y0 n cx cy = true := by
  obtain ⟨-, hflag⟩ := drawRows_spec x0 y0 (readCells s.mem (cellsFromI s n)) s.fb
    (by rw [readCells_cellsFromI_length]; exact hn)
  rw [hflag]
  constructor
  · rintro ⟨p, hp, hset⟩
    have hx : p.1 % 64 < 64 := Nat.mod_lt _ (by decide)
    have hy : p.2 % 32 < 32 := Nat.mod_lt _ (by decide)
    refine ⟨p.1 % 64, hx, p.2 % 32, hy, (pixelAt_mod s.fb _ _).trans hset, ?_⟩
    refine (spriteCovers_iff s x0 y0 hn hx hy).mpr ⟨p, hp, ?_⟩
    simp [sameCell]
  · rintro ⟨cx, hx, cy, hy, hset, hcov⟩
    obtain ⟨p, hp, hsame⟩ := (spriteCovers_iff s x0 y0 hn hx hy).mp hcov
    exact ⟨p, hp, (pixelAt_of_sameCell s.fb hsame).trans hset⟩

end Draw

/-! ### `DRW` (R82 to R84) -/

theorem exec_drw_of_reaches {s : State} {x y n : Nibble} (h : reachesAtI s n.toNat) :
    exec (.drw x y n) s = .next (drawSprite s x y (cellsFromI s n.toNat)) := by
  rcases exec_drw_cases s x y n with ⟨-, h'⟩ | ⟨hp, hn, hout, -⟩
  · exact h'
  · exact absurd h (not_reachesAtI hp hn hout)

theorem rows_le (n : Nibble) : n.toNat ≤ 32 := by
  have := n.isLt
  omega

theorem pixelAt_drawSprite (s : State) (x y n : Nibble) {cx cy : Nat} (hx : cx < 64) (hy : cy < 32) :
    pixelAt (drawSprite s x y (cellsFromI s n.toNat)).fb cx cy =
      (pixelAt s.fb cx cy ^^ spriteCovers s (readV s x).toNat (readV s y).toNat n.toNat cx cy) :=
  pixelAt_drawRows s _ _ (rows_le n) hx hy

theorem readV_drawSprite_other (s : State) (x y : Nibble) (cs : List (Fin 4096)) {r : Nibble} (hr : r ≠ regF) :
    readV (drawSprite s x y cs) r = readV s r :=
  readV_writeV_other _ _ hr

/-- `VF` after a draw. -/
theorem readV_drawSprite_regF (s : State) (x y : Nibble) (cs : List (Fin 4096)) :
    readV (drawSprite s x y cs) regF =
      flagByte (drawRows (readV s x).toNat (readV s y).toNat (readCells s.mem cs) (s.fb, false)).2 :=
  readV_writeV_same _ _ _

/-- Settles O18: the cells toggled are those the sprite covers, and the collision flag is that one of them was set. -/
theorem drawXorsTheSprite : Obligations.DrawXorsTheSprite := by
  unfold Obligations.DrawXorsTheSprite
  intro s x y n hreach
  have hiff := drawRows_collides_iff s (readV s x).toNat (readV s y).toNat (rows_le n)
  refine ⟨_, exec_drw_of_reaches hreach, fun cx hx cy hy => pixelAt_drawSprite s x y n hx hy, fun hhit => ?_,
    fun hmiss => ?_, fun r hr => readV_drawSprite_other s x y _ hr, rfl, fun _ => rfl⟩
  · rw [readV_drawSprite_regF, hiff.mpr hhit]
    rfl
  · have hnone : ¬ ∃ cx < 64, ∃ cy < 32, pixelAt s.fb cx cy = true ∧
        spriteCovers s (readV s x).toNat (readV s y).toNat n.toNat cx cy = true := by
      rintro ⟨cx, hx, cy, hy, hset, hcov⟩
      rw [hmiss cx hx cy hy hset] at hcov
      cases hcov
    rw [readV_drawSprite_regF, Bool.eq_false_iff.mpr (mt hiff.mp hnone)]
    rfl

/-- Settles O19: the first draw changes neither coordinate, nor `I`, nor memory, so the second toggles the same cells. -/
theorem drawTwiceRestoresTheScreen : Obligations.DrawTwiceRestoresTheScreen := by
  unfold Obligations.DrawTwiceRestoresTheScreen
  intro s x y n hx hy hreach
  refine ⟨_, _, exec_drw_of_reaches hreach, exec_drw_of_reaches hreach, framebuffer_ext fun cx hcx cy hcy => ?_⟩
  rw [pixelAt_drawSprite _ x y n hcx hcy, pixelAt_drawSprite s x y n hcx hcy, readV_drawSprite_other s x y _ hx,
    readV_drawSprite_other s x y _ hy, Bool.xor_assoc]
  exact (congrArg _ (Bool.xor_self _)).trans (Bool.xor_false _)

end Sys2Proof.Machine
end

section
/-!
Halted cores, batches, cycles and keys (30_encoding.md section 2; 60_exceptions.md sections 1, 3, 4 and 8), and the order of
the host's operations (70_reset_and_hazards.md section 1).
-/

namespace Sys2Proof.Machine

open Sys2Proof.Safety

/-! ### The step of a running and of a halted core (R62, R157) -/

theorem halted_eq_true_iff (s : State) : halted s = true ↔ s.fault ≠ none ∨ s.paused = true := by
  simp [halted, Option.isSome_iff_ne_none]

theorem step_of_halted {s : State} (h : halted s = true) : step s = .next s := by
  simp [step, fetchDecode, h]

theorem step_of_unknown {s : State} {op : Word} (hrun : halted s = false)
    (hop : fetch16 s.params s.mem s.pc.toNat = .ok op) (hdec : decode op = .error (.unknown op)) :
    step s = .next (raise (advancePc s) (.unknownOpcode op s.pc)) := by
  simp [step, fetchDecode, hrun, hop, hdec]

/-- Settles O6. -/
theorem stepRunsDecodedInstruction : Obligations.StepRunsDecodedInstruction := by
  unfold Obligations.StepRunsDecodedInstruction
  exact fun s op i hf hp hop hdec => step_of_decoded ((halted_eq_false_iff s).mpr ⟨hf, hp⟩) hop hdec

/-- Settles O7: a word that no row accepts is refused by the decoder. -/
theorem unknownWordRaisesUnknownOpcode : Obligations.UnknownWordRaisesUnknownOpcode := by
  unfold Obligations.UnknownWordRaisesUnknownOpcode
  exact fun s op hf hp hop hword =>
    step_of_unknown ((halted_eq_false_iff s).mpr ⟨hf, hp⟩) hop ((not_wordWellFormed_iff_unknown op).mp hword)

/-! ### Batches (R165, R166) -/

theorem runBatch_of_halted (n : Nat) {s : State} (h : halted s = true) : runBatch n s = .next s := by
  cases n with
  | zero => rfl
  | succ n => exact runBatch_succ_of_halted n h

/-- A batch that ended halted ends there whatever its limit. -/
theorem runBatch_add_of_halted {n : Nat} (m : Nat) {s t : State} (h : runBatch n s = .next t) (ht : halted t = true) :
    runBatch (n + m) s = .next t := by
  induction n generalizing s with
  | zero =>
    cases h
    exact runBatch_of_halted _ ht
  | succ n ih =>
    rw [Nat.add_right_comm]
    rcases runBatch_succ_cases n s with ⟨hs, h'⟩ | ⟨hs, r, hr, h'⟩
    · cases h.symm.trans h'
      exact runBatch_succ_of_halted _ hs
    · rw [runBatch_succ_of_running _ hs hr]
      exact ih (h'.symm.trans h)

/-- A batch that ended running is extended by one step. -/
theorem runBatch_succ_of_step {n : Nat} {s t u : State} (h : runBatch n s = .next t) (ht : halted t = false)
    (hu : step t = .next u) : runBatch (n + 1) s = .next u := by
  induction n generalizing s with
  | zero =>
    cases h
    exact runBatch_succ_of_running 0 ht hu
  | succ n ih =>
    rcases runBatch_succ_cases n s with ⟨hs, h'⟩ | ⟨hs, r, hr, h'⟩
    · cases h.symm.trans h'
      rw [hs] at ht
      cases ht
    · rw [runBatch_succ_of_running _ hs hr]
      exact ih (h'.symm.trans h)

/-- Settles O45. -/
theorem batchStopsWhenHalted : Obligations.BatchStopsWhenHalted := by
  unfold Obligations.BatchStopsWhenHalted
  intro n m s t u h
  refine ⟨?_, fun hs => ?_, fun ht => ?_, fun hf hp hu => ?_⟩
  · rintro rfl
    cases h
    rfl
  · cases h.symm.trans (runBatch_of_halted n ((halted_eq_true_iff s).mpr hs))
    rfl
  · exact runBatch_add_of_halted m h ((halted_eq_true_iff t).mpr ht)
  · exact runBatch_succ_of_step h ((halted_eq_false_iff t).mpr ⟨hf, hp⟩) hu

/-! ### Timers and signals at the end of a cycle (R167 to R171) -/

theorem countDown_toNat (b : Byte) : (countDown b).toNat = b.toNat - 1 := by
  unfold countDown
  split
  · next h => rw [h]; rfl
  · next h =>
    have hpos : b.toNat ≠ 0 := fun h0 => h (BitVec.eq_of_toNat_eq h0)
    rw [BitVec.toNat_sub_of_le (by rw [BitVec.le_def]; exact Nat.one_le_iff_ne_zero.mpr hpos)]
    rfl

/-- Settles O47: the timers count down by one at each of the k steps, and the core stays unpaused. -/
theorem timersCountDownToZero : Obligations.TimersCountDownToZero := by
  unfold Obligations.TimersCountDownToZero
  intro k
  induction k with
  | zero => exact fun s _ => ⟨rfl, rfl⟩
  | succ k ih =>
    intro s hp
    obtain ⟨hdt, hst⟩ := ih (timerStep s) ((timerStep_paused s).trans hp)
    rw [timerStep_dt, hp] at hdt
    rw [timerStep_st, hp] at hst
    simp only [Bool.false_eq_true, if_false, countDown_toNat] at hdt hst
    rw [Function.iterate_succ_apply, hdt, hst]
    omega

theorem cycleCalls_of_cycle {s t : State} (h : cycle s = .next t) : cycleCalls s = callsAtEnd t := by
  simp [cycleCalls, h]

section EndCycle

variable {u : State} (hu : u.fault = none)

include hu

theorem endCycle_dt_toNat : (endCycle u).dt.toNat = if u.paused then u.dt.toNat else u.dt.toNat - 1 := by
  rw [endCycle_of_noFault hu, audioSignal_dt, timerStep_dt, apply_ite BitVec.toNat, countDown_toNat]

theorem endCycle_st_toNat : (endCycle u).st.toNat = if u.paused then u.st.toNat else u.st.toNat - 1 := by
  rw [endCycle_of_noFault hu, audioSignal_st, timerStep_st, apply_ite BitVec.toNat, countDown_toNat]

theorem endCycle_audioOn : (endCycle u).audioOn = decide (0 < (endCycle u).st.toNat) := by
  rw [endCycle_of_noFault hu]
  rfl

theorem callsAtEnd_endCycle :
    callsAtEnd (endCycle u) = [if 0 < (endCycle u).st.toNat then .play Config.toneHz else .stop, .render] := by
  have hf : (endCycle u).fault = none := by rw [endCycle_eq_with]; exact hu
  simp [callsAtEnd, hf, endCycle_audioOn hu]

end EndCycle

/-- Settles O43. -/
theorem cycleEndsWithTimersAndSignals : Obligations.CycleEndsWithTimersAndSignals := by
  unfold Obligations.CycleEndsWithTimersAndSignals
  intro s u hs hbatch hu
  have hcycle := cycle_of_batch hs hbatch
  refine ⟨_, hcycle, endCycle_dt_toNat hu, endCycle_st_toNat hu, ?_, ?_, endCycle_eq_with u⟩
  · rw [endCycle_audioOn hu, decide_eq_true_eq]
  · rw [cycleCalls_of_cycle hcycle, callsAtEnd_endCycle hu]

theorem callsAtEnd_of_fault {t : State} {f : Fault} (h : t.fault = some f) : callsAtEnd t = [] := by
  simp [callsAtEnd, h]

/-- Settles O44. -/
theorem faultEndsTheCycle : Obligations.FaultEndsTheCycle := by
  unfold Obligations.FaultEndsTheCycle
  intro s u f hs hbatch hu
  have hcycle : cycle s = .next u := by rw [cycle_of_batch hs hbatch, endCycle_of_fault hu]
  exact ⟨hcycle, by rw [cycleCalls_of_cycle hcycle, callsAtEnd_of_fault hu]⟩

theorem endCycle_of_paused {s : State} (hf : s.fault = none) (hp : s.paused = true) :
    endCycle s = { s with audioOn := decide (0 < s.st.toNat) } := by
  rw [endCycle_of_noFault hf]
  simp [timerStep, hp, audioSignal]

/-- Settles O10: the batch of a paused core is empty, and its end leaves the timers. -/
theorem pausedCoreOnlySignals : Obligations.PausedCoreOnlySignals := by
  unfold Obligations.PausedCoreOnlySignals
  intro s hf hp
  have hhalt := (halted_eq_true_iff s).mpr (.inr hp)
  have hcycle := cycle_of_batch hf (runBatch_of_halted _ hhalt)
  have hcalls := (cycleCalls_of_cycle hcycle).trans (callsAtEnd_endCycle hf)
  rw [endCycle_of_paused hf hp] at hcycle hcalls
  exact ⟨step_of_halted hhalt, hcycle, hcalls⟩

/-! ### A program that jumps to itself (60_exceptions.md section 8) -/

theorem jumpTo_advancePc (s : State) : jumpTo (advancePc s) s.pc = s := rfl

theorem step_of_selfJump {s : State} {nnn : Addr12} (hrun : halted s = false) (hpc : s.pc.toNat = nnn.toNat)
    (hop : fetch16 s.params s.mem s.pc.toNat = .ok (encode (.jp nnn))) : step s = .next s := by
  have htarget : zextAddr nnn = s.pc := BitVec.eq_of_toNat_eq ((zextAddr_toNat nnn).trans hpc.symm)
  rw [step_of_decoded hrun hop (decode_encode _), exec_jp, htarget, jumpTo_advancePc]

theorem runBatch_of_step_self {s : State} (h : step s = .next s) (n : Nat) : runBatch n s = .next s := by
  obtain ⟨t, ht⟩ := runBatch_total n s
  have hkeep : ∀ r r', r = s → step r = .next r' → r' = s := by
    rintro r r' rfl hr
    cases h.symm.trans hr
    rfl
  rw [ht, runBatch_keeps (P := (· = s)) hkeep rfl ht]

/-- Settles O46: every step of the batch leaves the state, so the cycle is its end alone. -/
theorem selfJumpIsIdle : Obligations.SelfJumpIsIdle := by
  unfold Obligations.SelfJumpIsIdle
  intro s nnn hf hp hpc hop
  have hstep := step_of_selfJump ((halted_eq_false_iff s).mpr ⟨hf, hp⟩) hpc hop
  have hdt := endCycle_dt_toNat hf
  have hst := endCycle_st_toNat hf
  rw [hp] at hdt hst
  refine ⟨hstep, _, cycle_of_batch hf (runBatch_of_step_self hstep _), hdt, hst, ?_⟩
  rw [← endCycle_audioOn hf]
  exact endCycle_eq_with s

/-! ### Keys (R172 to R174) -/

theorem keyDown_of_fault (k : Nibble) {s : State} {f : Fault} (h : s.fault = some f) : keyDown k s = s := by
  simp [keyDown, h]

theorem keyDown_of_noPending (k : Nibble) {s : State} (h : s.pending = none) : keyDown k s = s := by
  rcases keyDown_cases k s with ⟨-, h'⟩ | ⟨-, x, hx, -⟩
  · exact h'
  · cases h.symm.trans hx

theorem keyDown_of_pending (k : Nibble) {s : State} {x : Nibble} (hf : s.fault = none) (hp : s.pending = some x) :
    keyDown k s = { writeV s x (zextKey k) with pending := none, paused := false } := by
  simp [keyDown, hf, hp]

/-- After a key an unfaulted core waits for none. -/
theorem keyDown_pending (k : Nibble) {s : State} (h : s.fault = none) : (keyDown k s).pending = none := by
  rcases keyDown_cases k s with ⟨hf | hp, h'⟩ | ⟨-, x, -, h'⟩ <;> rw [h']
  · exact absurd h hf
  · exact hp

/-- One of the keys of `keysDown`: it is delivered when its bit is set. -/
def deliver (keys : Word) (t : State) (k : Nat) : State :=
  if keys.getLsbD k then keyDown (BitVec.ofNat 4 k) t else t

theorem keysDown_eq_foldl (keys : Word) (s : State) :
    keysDown keys s = [0, 1, 2, 3, 4, 5, 6, 7, 8, 9, 10, 11, 12, 13, 14, 15].foldl (deliver keys) s := rfl

theorem foldl_deliver_of_idle (keys : Word) (ks : List Nat) {s : State} (h : ∀ k, keyDown k s = s) :
    ks.foldl (deliver keys) s = s := by
  induction ks with
  | nil => rfl
  | cons j ks ih =>
    have hj : deliver keys s j = s := by
      unfold deliver
      split
      · exact h _
      · rfl
    rw [List.foldl_cons, hj, ih]

theorem keysDown_of_idle (keys : Word) {s : State} (h : ∀ k, keyDown k s = s) : keysDown keys s = s :=
  foldl_deliver_of_idle keys _ h

/-- Of keys delivered in increasing order the ones below k are not pressed, k resumes the core, and the ones above find no
register pending. -/
theorem foldl_deliver_lowest {keys : Word} {k : Nibble} {s : State} (hf : s.fault = none)
    (hk : keys.getLsbD k.toNat = true) (hlow : ∀ j < k.toNat, keys.getLsbD j = false) {ks : List Nat}
    (hmem : k.toNat ∈ ks) (hsorted : ks.Pairwise (· < ·)) : ks.foldl (deliver keys) s = keyDown k s := by
  induction ks with
  | nil => cases hmem
  | cons j ks ih =>
    obtain ⟨hlt, hsorted⟩ := List.pairwise_cons.mp hsorted
    rw [List.foldl_cons]
    rcases List.mem_cons.mp hmem with rfl | hmem
    · have hdeliver : deliver keys s k.toNat = keyDown k s := by
        rw [deliver, if_pos hk, BitVec.ofNat_toNat, BitVec.setWidth_eq]
      rw [hdeliver]
      exact foldl_deliver_of_idle keys ks fun k' => keyDown_of_noPending k' (keyDown_pending k hf)
    · have hdeliver : deliver keys s j = s := by
        rw [deliver, hlow j (hlt _ hmem)]
        rfl
      rw [hdeliver]
      exact ih hmem hsorted

/-- Settles O42. -/
theorem lowestKeyResumes : Obligations.LowestKeyResumes := by
  unfold Obligations.LowestKeyResumes
  refine ⟨fun s k keys hp => ⟨keyDown_of_noPending k hp, keysDown_of_idle keys fun k' => keyDown_of_noPending k' hp⟩,
    fun s keys k hf hk hlow => ?_⟩
  rw [keysDown_eq_foldl]
  refine foldl_deliver_lowest hf hk hlow ?_ (by decide)
  have := k.isLt
  simp
  omega

theorem zextKey_toNat (k : Nibble) : (zextKey k).toNat = k.toNat :=
  BitVec.toNat_setWidth_of_le (by decide)

/-- Settles O41. -/
theorem keyWaitEndsWithTheKey : Obligations.KeyWaitEndsWithTheKey := by
  unfold Obligations.KeyWaitEndsWithTheKey
  intro s x k
  refine ⟨_, exec_ldVxK x s, rfl, fun _ => rfl, fun hf => ⟨_, keyDown_of_pending k hf rfl, ?_, fun r hr => ?_, rfl⟩⟩
  · exact (congrArg BitVec.toNat (readV_writeV_same _ x _)).trans (zextKey_toNat k)
  · exact readV_writeV_other _ _ hr

/-! ### Faulted cores and the host's operations (R157, R193, R194) -/

/-- Settles O9. -/
theorem faultIsSticky : Obligations.FaultIsSticky := by
  unfold Obligations.FaultIsSticky
  intro s f k keys hf
  have hhalt : halted s = true := (halted_eq_true_iff s).mpr (.inl (by simp [hf]))
  have hcycle := cycle_of_fault hf
  refine ⟨step_of_halted hhalt, hcycle, (cycleCalls_of_cycle hcycle).trans (callsAtEnd_of_fault hf),
    keyDown_of_fault k hf, keysDown_of_idle keys fun k' => keyDown_of_fault k' hf, hf, fun _ => rfl,
    fun image t h => ?_, fun init ml => ⟨_, rfl, rfl⟩⟩
  obtain ⟨-, rfl⟩ := (load_eq_next_iff image s t).mp h
  exact hf

theorem perform_load_accepted {image : List Byte} {c : Session} (hml : c.mayLoad = true) (hle : image.length ≤ 3584) :
    ∃ e, perform (.load image) c = .next e := by
  have hperform : perform (.load image) c = toSession false (load image c.core) := if_pos hml
  rw [hperform, (load_eq_next_iff image c.core _).mpr ⟨hle, rfl⟩]
  exact ⟨_, rfl⟩

theorem perform_reset (init : ResetInit) (c : Session) :
    ∃ d, perform (.reset init) c = .next d ∧ d.core.fault = none ∧ d.mayLoad = true :=
  ⟨_, rfl, rfl, rfl⟩

/-- Settles O57. -/
theorem loadOnlyBeforeTheFirstCycle : Obligations.LoadOnlyBeforeTheFirstCycle := by
  unfold Obligations.LoadOnlyBeforeTheFirstCycle
  refine ⟨fun image c hml => ?_, fun image c d h => ?_, fun c d h => ?_, fun k c d h => ?_, fun init image c hle => ?_⟩
  · simp [perform, hml]
  · obtain ⟨-, -, hml⟩ := perform_load_eq_next h
    exact hml
  · rcases h with h | h
    · exact (toSession_eq_next h).2
    · exact (toSession_eq_next h).2
  · cases h
    rfl
  · obtain ⟨d, hd, -, hml⟩ := perform_reset init c
    obtain ⟨e, he⟩ := perform_load_accepted hml hle
    exact ⟨d, e, hd, he⟩

theorem keyDown_keeps_fault (k : Nibble) (s : State) : (keyDown k s).fault = s.fault := by
  rcases keyDown_cases k s with ⟨-, h⟩ | ⟨-, x, -, h⟩ <;> rw [h]
  rfl

/-- Settles O58: `step`, `cycle` and `load` end the time for a load, `key_down` keeps both the fault and the time, and a reset
clears the fault. -/
theorem faultedSessionsRefuseLoads : Obligations.FaultedSessionsRefuseLoads := by
  unfold Obligations.FaultedSessionsRefuseLoads
  refine ⟨fun op c d hc h hd => ?_, perform_reset⟩
  cases op with
  | reset init =>
    cases h
    exact absurd rfl hd
  | load image =>
    obtain ⟨-, -, hml⟩ := perform_load_eq_next h
    exact hml
  | step => exact (toSession_eq_next h).2
  | cycle => exact (toSession_eq_next h).2
  | keyDown k =>
    cases h
    exact hc (by rwa [keyDown_keeps_fault] at hd)

end Sys2Proof.Machine
end
